-- ==== Sys2Proof/Config.lean ====
section
/-! DEFINITION. The sizes the source fixes (00_scope.md R4), as named constants. No element of this
configuration is left to the implementation, and no result of an instruction is left open
(93_implementation_defined.md, section 1), so there is no opaque constant here. -/

namespace Sys2Proof.Config

/-- `MEM_SIZE`: the number of memory Words (R4). -/
abbrev memSize : Nat := 100

/-- `ADDR_MAX`: the highest valid address (R4). -/
abbrev addrMax : Nat := 99

/-- `WORD_MAX`: the largest Word magnitude (R4). -/
abbrev wordMax : Int := 9999

/-- `WORD_MOD`: the truncation modulus (R4). -/
abbrev wordMod : Nat := 10000

/-- `OP_DIV`: the radix that splits opcode from operand (R4). -/
abbrev opDiv : Nat := 100

/-- `PC_RESET`: the cursor at the start of a run (R4). -/
abbrev pcReset : Nat := 0

end Sys2Proof.Config
end

