-- ==== Sys2Proof/Syntax.lean ====
section
/-! DEFINITION. The twelve instructions of 30_encoding.md R53, one constructor per row of
spec/opcode_table.json, in the table's order. Each has one operand `aa`, the two low decimal digits of the
instruction Word (R55): a data address, or a cursor value for BRANCH, BRANCHNEG, BRANCHZERO and HALT. -/

namespace Sys2Proof

/-- An instruction of BasicML with its operand. -/
inductive Instr where
  /-- READ aa (opcode 10, R90) -/
  | read (aa : Nat)
  /-- WRITE aa (opcode 11, R91) -/
  | write (aa : Nat)
  /-- LOAD aa (opcode 20, R100) -/
  | load (aa : Nat)
  /-- STORE aa (opcode 21, R101) -/
  | store (aa : Nat)
  /-- ADD aa (opcode 30, R113) -/
  | add (aa : Nat)
  /-- SUBTRACT aa (opcode 31, R114) -/
  | subtract (aa : Nat)
  /-- DIVIDE aa (opcode 32, R115) -/
  | divide (aa : Nat)
  /-- MULTIPLY aa (opcode 33, R116) -/
  | multiply (aa : Nat)
  /-- BRANCH aa (opcode 40, R131) -/
  | branch (aa : Nat)
  /-- BRANCHNEG aa (opcode 41, R132) -/
  | branchneg (aa : Nat)
  /-- BRANCHZERO aa (opcode 42, R133) -/
  | branchzero (aa : Nat)
  /-- HALT aa (opcode 43, R134) -/
  | halt (aa : Nat)
deriving DecidableEq, Repr

/-- The operand field `aa` (R50). -/
def Instr.operand : Instr → Nat
  | .read aa => aa
  | .write aa => aa
  | .load aa => aa
  | .store aa => aa
  | .add aa => aa
  | .subtract aa => aa
  | .divide aa => aa
  | .multiply aa => aa
  | .branch aa => aa
  | .branchneg aa => aa
  | .branchzero aa => aa
  | .halt aa => aa

end Sys2Proof
end

