-- ==== Sys2Proof/WellFormed.lean ====
section
/-! DEFINITION. Which terms of `Instr` are instructions of the machine: the operand has two decimal digits
(30_encoding.md R52, R57). Every such operand is legal with every opcode; there is no other check. -/

namespace Sys2Proof

/-- The operand lies in 00 to 99 (R52, R57). -/
def Instr.wellFormed (i : Instr) : Bool := decide (i.operand ≤ Config.addrMax)

end Sys2Proof
end

