-- ==== Sys2Proof/Decode.lean ====
section
/-! DEFINITION. The decoder and the encoder (30_encoding.md R50 to R59), over arbitrary integers, as R51
states them. -/

namespace Sys2Proof

/-- Why an integer is no instruction. Raised by `decode`; safe, since the spec gives such a Word no effect but
the end of the run (R54, R75). -/
inductive DecodeError where
  /-- The opcode is none of the twelve (R54). -/
  | unrecognizedOpcode (op : Nat)
deriving DecidableEq, Repr

/-- `decode(w)` of R51: opcode and operand of any integer, the sign discarded (R56). -/
def decodeFields (w : Int) : Nat × Nat :=
  (w.natAbs / Config.opDiv, w.natAbs % Config.opDiv)

/-- The opcode map of R53; every other opcode is unrecognized (R54). -/
def instrOfFields (op aa : Nat) : Except DecodeError Instr :=
  match op with
  | 10 => .ok (.read aa)
  | 11 => .ok (.write aa)
  | 20 => .ok (.load aa)
  | 21 => .ok (.store aa)
  | 30 => .ok (.add aa)
  | 31 => .ok (.subtract aa)
  | 32 => .ok (.divide aa)
  | 33 => .ok (.multiply aa)
  | 40 => .ok (.branch aa)
  | 41 => .ok (.branchneg aa)
  | 42 => .ok (.branchzero aa)
  | 43 => .ok (.halt aa)
  | other => .error (.unrecognizedOpcode other)

/-- The instruction an integer stands for, or the name of why it is none (R51, R53, R54). -/
def decode (w : Int) : Except DecodeError Instr :=
  instrOfFields (decodeFields w).1 (decodeFields w).2

/-- The opcode of an instruction (the table of R53). -/
def opcodeOf : Instr → Nat
  | .read _ => 10
  | .write _ => 11
  | .load _ => 20
  | .store _ => 21
  | .add _ => 30
  | .subtract _ => 31
  | .divide _ => 32
  | .multiply _ => 33
  | .branch _ => 40
  | .branchneg _ => 41
  | .branchzero _ => 42
  | .halt _ => 43

/-- The unsigned instruction Word `op * 100 + aa` (R52, R61); its negation is the other Word of the same
instruction (R56). -/
def encode (i : Instr) : Int := (opcodeOf i * Config.opDiv + i.operand : Nat)

/-- What the decoder reads from the table Word `w`. The opcode table is decimal (30_encoding.md section 8):
`w` is the magnitude of the instruction Word and `nbits` says nothing about it (DESIGN CHOICE, log entry 11). -/
def decodeTableWord (_nbits w : Nat) : Option Instr :=
  match decode (w : Int) with
  | .ok i => some i
  | .error _ => none

end Sys2Proof
end

