-- ==== Sys2Proof/Word.lean ====
section
/-! DEFINITION. The Word (10_state.md R10): the one data type of the machine, held by every memory cell
and by the accumulator. -/

namespace Sys2Proof

/-- A Word: "a signed integer in the logical range [-9999, 9999]" (R10). A mathematical integer, with one
zero and no bit layout; the range is carried by the type, so that a cell holds a Word and nothing else
(R11, 92_eei_decisions.md D2). -/
@[ext] structure Word where
  /-- the integer the Word is -/
  val : Int
  /-- it has at most four decimal digits -/
  inRange : -Config.wordMax ≤ val ∧ val ≤ Config.wordMax
deriving DecidableEq, Repr

/-- The Word 0, the reset content of every cell (R11) and of the accumulator (R12). -/
def Word.zero : Word := ⟨0, by decide⟩

/-- The Word with a given value, if the value is one of the 19999 (R10). -/
def Word.ofInt (v : Int) : Option Word :=
  if h : -Config.wordMax ≤ v ∧ v ≤ Config.wordMax then some ⟨v, h⟩ else none

end Sys2Proof
end

