-- ==== Sys2Proof/Machine/State.lean ====
section
/-! DEFINITION. The state of the machine (10_state.md): the core's `(mem, acc, pc, status)` and, beside it, what
has crossed the boundary to the host (`in`, `out`, `halt_count` of 50_host_interface.md). Plain data. -/

namespace Sys2Proof.Machine

/-- The causes a run can end with (60_exceptions.md R170). The name is the code; no number, no address and no
instruction Word is recorded (10_state.md R17). -/
inductive Cause where
  /-- An address outside 0 to 99 was fetched from, accessed or branched to (R171). -/
  | outOfRange
  /-- DIVIDE by a cell that holds 0 (R172). -/
  | divideByZero
  /-- A non-numeric cell was used arithmetically: kept in the enumeration, never raised, since every cell holds a
  Word (R173, 43_arithmetic.md R118). -/
  | invalidOperand
  /-- The fetched Word's opcode is none of the twelve (R174). -/
  | unrecognizedOpcode
deriving DecidableEq, Repr

/-- The engine state (10_state.md R16). -/
inductive Status where
  /-- steps are taken -/
  | running
  /-- the program executed HALT -/
  | halted
  /-- a fault ended the run -/
  | terminated (cause : Cause)
deriving DecidableEq, Repr

/-- The memory bank (10_state.md R11): the cells that do not hold 0, as pairs of address and Word. An address that
is not listed reads 0, the reset content the spec gives every cell. The smallest addressable unit is the Word, there are
no bytes (10_state.md R19; log entry 1). -/
abbrev Memory := List (Nat × Word)

/-- The canonical form: addresses strictly rising, each of them 0 to 99, and no listed cell holding 0. -/
abbrev Memory.wf (m : Memory) : Prop :=
  m.Pairwise (fun x y => x.1 < y.1) ∧ ∀ e ∈ m, e.1 ≤ Config.addrMax ∧ e.2 ≠ Word.zero

/-- The whole state. -/
structure State where
  /-- the 100 Words of memory (R11) -/
  mem : Memory
  /-- the accumulator (R12) -/
  acc : Word
  /-- the cursor, 0 to 99, and 100 after running off the end (R13) -/
  pc : Nat
  /-- the engine state (R16) -/
  status : Status
  /-- `in`: the Words the host has delivered and no READ has taken, oldest first (50_host_interface.md R154) -/
  input : List Word
  /-- `out`: the Words WRITE has emitted, oldest first (50_host_interface.md R155) -/
  output : List Word
  /-- `halt_count`: the halt notifications sent (50_host_interface.md R156) -/
  haltCount : Nat
deriving DecidableEq, Repr

/-- The machine stopping without a next state: it never does. Every fault of the spec is a next state whose `status` is
`terminated cause`, because the core keeps its state for the host to read after it (50_host_interface.md R157, R159;
log entry 3), so this type has no constructor. -/
inductive Fault where
deriving DecidableEq, Repr

/-- An instruction without a meaning. -/
inductive Refusal where
  /-- Raised by an arm of `exec` whose instruction has no meaning yet; safe, since nothing is then said about it. No arm
  of this model raises it. -/
  | notModelled (mnemonic : String)
deriving DecidableEq, Repr

/-- What a step or an instruction answers. -/
abbrev Result := Host.Outcome State Fault Refusal

/-- The machine after reset (10_state.md R22, 70_reset_and_hazards.md R190). `input` is a parameter of the run and not a
reset value of the spec: empty here (DESIGN CHOICE, log entry 5). -/
def State.reset : State where
  mem := []
  acc := Word.zero
  pc := Config.pcReset
  status := .running
  input := []
  output := []
  haltCount := 0

end Sys2Proof.Machine
end

