-- ==== Sys2Proof/Machine/Ops.lean ====
section
/-! DEFINITION. The named operations over the state: the memory primitives, the fault, the services of the boundary to
the host, and the two arithmetic primitives. -/

namespace Sys2Proof.Machine

/-! ### The store -/

/-- The Word at an address; an unlisted address reads 0 (10_state.md R11). -/
def Memory.read : Memory → Nat → Word
  | [], _ => Word.zero
  | (k, v) :: rest, a => if k = a then v else Memory.read rest a

/-- Put a cell in its place by address. -/
def Memory.insert (a : Nat) (v : Word) : Memory → Memory
  | [] => [(a, v)]
  | (k, x) :: rest =>
    if a < k then (a, v) :: (k, x) :: rest else (k, x) :: Memory.insert a v rest

/-- Replace the Word at an address, keeping the canonical form: a cell that becomes 0 is no longer listed. -/
def Memory.write (m : Memory) (a : Nat) (v : Word) : Memory :=
  let others := m.filter (fun e => e.1 ≠ a)
  if v = Word.zero then others else Memory.insert a v others

/-- `MemRead(a, 1)` (20_memory.md R31). -/
def memRead (m : Memory) (a : Int) : Except Cause Word :=
  if a < 0 ∨ (Config.addrMax : Int) < a then .error .outOfRange
  else .ok (Memory.read m a.toNat)

/-- `MemWrite(a, 1, v)` (20_memory.md R32). -/
def memWrite (m : Memory) (a : Int) (v : Word) : Except Cause Memory :=
  if a < 0 ∨ (Config.addrMax : Int) < a then .error .outOfRange
  else .ok (Memory.write m a.toNat v)

/-- `Fetch()` (40_execution_cycle.md R72). -/
def fetch (s : State) : Except Cause Word := memRead s.mem (s.pc : Int)

/-! ### Updates of the state -/

/-- The advance of the cursor, with no wrap (40_execution_cycle.md R74). -/
def advance (s : State) : State := { s with pc := s.pc + 1 }

/-- Assign the cursor. -/
def setPc (a : Nat) (s : State) : State := { s with pc := a }

/-- Assign the accumulator. -/
def setAcc (v : Word) (s : State) : State := { s with acc := v }

/-- Replace the store. -/
def setMem (m : Memory) (s : State) : State := { s with mem := m }

/-- `status <- Halted` (44_control.md R134). -/
def setHalted (s : State) : State := { s with status := .halted }

/-- `status <- Terminated(cause)` (60_exceptions.md R175). -/
def terminate (c : Cause) (s : State) : State := { s with status := .terminated c }

/-- What is left to deliver after an `Input()` (50_host_interface.md R154). -/
def setInput (rest : List Word) (s : State) : State := { s with input := rest }

/-- `Output(v)`: always accepted (50_host_interface.md R155). -/
def emit (v : Word) (s : State) : State := { s with output := s.output ++ [v] }

/-- `NotifyHalt()` (50_host_interface.md R156). -/
def notifyHalt (s : State) : State := { s with haltCount := s.haltCount + 1 }

/-! ### Faults and waiting -/

/-- `raise X`: the step is abandoned and `status <- Terminated(X)` is its only effect (60_exceptions.md R175). It is given
the state before the step. There is no return from it (R178): only a reset or a re-launch leaves the state it makes. -/
def raise (c : Cause) (s : State) : Result := .next (terminate c s)

/-- Nothing happens: a core that is `Halted` or `Terminated` (40_execution_cycle.md R78), or held at a READ for which no
input has come (R81). The state is unchanged (DEDUCED, log entry 4). -/
def stay (s : State) : Result := .next s

/-! ### The two arithmetic primitives -/

/-- `trunc4(v) = sign(v) * (abs(v) mod 10000)` (43_arithmetic.md R110). -/
def trunc4 (v : Int) : Int := v.sign * ((v.natAbs % Config.wordMod : Nat) : Int)

/-- R110 (a): the result is always a Word. -/
theorem trunc4_inRange (v : Int) :
    -Config.wordMax ≤ trunc4 v ∧ trunc4 v ≤ Config.wordMax := by
  have hlt : v.natAbs % Config.wordMod < 10000 := Nat.mod_lt _ (by decide)
  unfold trunc4
  rcases lt_trichotomy v 0 with h | h | h
  · rw [Int.sign_eq_neg_one_of_neg h]
    exact ⟨by simp only [Config.wordMax]; omega, by simp only [Config.wordMax]; omega⟩
  · subst h
    simp
  · rw [Int.sign_eq_one_of_pos h]
    exact ⟨by simp only [Config.wordMax]; omega, by simp only [Config.wordMax]; omega⟩

/-- The truncated value as a Word. -/
def truncWord (v : Int) : Word := ⟨trunc4 v, trunc4_inRange v⟩

/-- `floor_div(a, b)`, rounding toward minus infinity (43_arithmetic.md R111). -/
def floorDiv (a b : Int) : Int := Int.fdiv a b

end Sys2Proof.Machine
end

