-- ==== Sys2Proof/Machine/Operands.lean ====
section
/-! DEFINITION. The two uses of the operand field. As a data address it is absolute: `ea = aa`, no base, no index, no
indirection (42_load_store.md, "Addressing"; 30_encoding.md R55). As a cursor value it is the target of a branch
(44_control.md R130). -/

namespace Sys2Proof.Machine

/-- Read the data operand `mem[aa]` and go on with it, or raise what the read raises (20_memory.md R31). -/
def withDataOperand (aa : Nat) (s : State) (use : Word → Result) : Result :=
  match memRead s.mem (aa : Int) with
  | .error c => raise c s
  | .ok v => use v

/-- Store a Word at the data operand and go on with the new store, or raise what the write raises (20_memory.md R32). -/
def withDataStored (aa : Nat) (v : Word) (s : State) (use : Memory → Result) : Result :=
  match memWrite s.mem (aa : Int) v with
  | .error c => raise c s
  | .ok m => use m

/-- The Control Unit's assignment of a branch operand, over arbitrary integers: valid exactly from 0 to 99, else
`OutOfRange` with the cursor unchanged (44_control.md R130, 90_conflicts.md C2). -/
def branchTo (target : Int) (s : State) : Result :=
  if 0 ≤ target ∧ target ≤ (Config.addrMax : Int) then .next (setPc target.toNat s)
  else raise .outOfRange s

end Sys2Proof.Machine
end

