-- ==== Sys2Proof/Machine/Arithmetic.lean ====
section
/-! DEFINITION. ADD, SUBTRACT, DIVIDE and MULTIPLY (43_arithmetic.md): the left operand is the accumulator, the right one
`mem[aa]`; the exact integer result is truncated by `trunc4` and written to the accumulator. -/

namespace Sys2Proof.Machine

/-- The common end of the four: `acc <- trunc4(v)`, then the advance. -/
def finishArithmetic (v : Int) (s : State) : Result :=
  .next (advance (setAcc (truncWord v) s))

/-- ADD (R113). -/
def execAdd (aa : Nat) (s : State) : Result :=
  withDataOperand aa s (fun m => finishArithmetic (s.acc.val + m.val) s)

/-- SUBTRACT (R114): `acc - m`, not `m - acc`. -/
def execSubtract (aa : Nat) (s : State) : Result :=
  withDataOperand aa s (fun m => finishArithmetic (s.acc.val - m.val) s)

/-- DIVIDE (R115): `DivideByZero` before any write when the divisor is 0, whatever the dividend. -/
def execDivide (aa : Nat) (s : State) : Result :=
  withDataOperand aa s (fun m =>
    if m.val = 0 then raise .divideByZero s
    else finishArithmetic (floorDiv s.acc.val m.val) s)

/-- MULTIPLY (R116). -/
def execMultiply (aa : Nat) (s : State) : Result :=
  withDataOperand aa s (fun m => finishArithmetic (s.acc.val * m.val) s)

end Sys2Proof.Machine
end

