-- ==== Sys2Proof/Machine/Flags.lean ====
section
/-! DEFINITION. The machine has no flags and no condition codes (10_state.md R15). The conditional branches test the current
value of the accumulator directly; these are the only two conditions (44_control.md R135). -/

namespace Sys2Proof.Machine

/-- The condition of BRANCHNEG, `acc < 0` (44_control.md R132). -/
def accNegative (s : State) : Bool := decide (s.acc.val < 0)

/-- The condition of BRANCHZERO, `acc = 0` (44_control.md R133). -/
def accZero (s : State) : Bool := decide (s.acc.val = 0)

end Sys2Proof.Machine
end

