-- ==== Sys2Proof/Machine/Control.lean ====
section
/-! DEFINITION. BRANCH, BRANCHNEG, BRANCHZERO and HALT (44_control.md). None accesses data memory. -/

namespace Sys2Proof.Machine

/-- BRANCH (R131). -/
def execBranch (aa : Nat) (s : State) : Result := branchTo (aa : Int) s

/-- BRANCHNEG (R132); an untaken branch does not validate its operand (R130). -/
def execBranchneg (aa : Nat) (s : State) : Result :=
  if accNegative s then branchTo (aa : Int) s else .next (advance s)

/-- BRANCHZERO (R133); an untaken branch does not validate its operand (R130). -/
def execBranchzero (aa : Nat) (s : State) : Result :=
  if accZero s then branchTo (aa : Int) s else .next (advance s)

/-- HALT (R134): the cursor takes the operand, unvalidated and without an increment, the run ends and the host is notified
once. -/
def execHalt (aa : Nat) (s : State) : Result :=
  .next (notifyHalt (setHalted (setPc aa s)))

end Sys2Proof.Machine
end

