-- ==== Sys2Proof/Machine/Io.lean ====
section
/-! DEFINITION. READ and WRITE (41_io.md). -/

namespace Sys2Proof.Machine

/-- READ (R90): request an input Word first, then store it; with none delivered the core is held, its state unchanged
(40_execution_cycle.md R81). A raise keeps nothing, so the Word is then not consumed (60_exceptions.md R175). -/
def execRead (aa : Nat) (s : State) : Result :=
  match s.input with
  | [] => stay s
  | v :: rest =>
    withDataStored aa v s (fun m => .next (advance (setMem m (setInput rest s))))

/-- WRITE (R91): emit `mem[aa]`. The accumulator takes no part (90_conflicts.md C3). -/
def execWrite (aa : Nat) (s : State) : Result :=
  withDataOperand aa s (fun v => .next (advance (emit v s)))

end Sys2Proof.Machine
end

