-- ==== Sys2Proof/Machine/LoadStore.lean ====
section
/-! DEFINITION. LOAD and STORE (42_load_store.md). -/

namespace Sys2Proof.Machine

/-- LOAD (R100): copy `mem[aa]` into the accumulator. -/
def execLoad (aa : Nat) (s : State) : Result :=
  withDataOperand aa s (fun v => .next (advance (setAcc v s)))

/-- STORE (R101): copy the accumulator into `mem[aa]`. -/
def execStore (aa : Nat) (s : State) : Result :=
  withDataStored aa s.acc s (fun m => .next (advance (setMem m s)))

end Sys2Proof.Machine
end

