-- ==== Sys2Proof/Machine/Cycle.lean ====
section
/-! DEFINITION. One pass of the fetch-decode-execute loop (40_execution_cycle.md R71), and the placing of a Word where the next
pass fetches. -/

namespace Sys2Proof.Machine

/-- The loop body of R71 for a running core: fetch (R72), decode (30_encoding.md R51), dispatch (R73). Each instruction
advances the cursor itself (R74). -/
def cycle (s : State) : Result :=
  match fetch s with
  | .error c => raise c s
  | .ok w =>
    match decode w.val with
    | .error (.unrecognizedOpcode _) => raise .unrecognizedOpcode s
    | .ok i => exec i s

/-- A step is taken only in `Running` (R70); `Halted` and `Terminated` are absorbing (R78). -/
def cycleByStatus (s : State) : Result :=
  match s.status with
  | .running => cycle s
  | .halted => stay s
  | .terminated _ => stay s

/-- Place the Word of value `w` where the next step fetches, in a core that will fetch: running, and with the cursor on a cell
(unchanged if it is on one, else 0). An integer that is no Word fits in no cell, and then nothing is placed
(DESIGN CHOICE, log entry 11). -/
def placeAtFetch (w : Nat) (s : State) : State :=
  match Word.ofInt (w : Int) with
  | none => s
  | some v =>
    let here := if s.pc ≤ Config.addrMax then s.pc else 0
    { s with mem := Memory.write s.mem here v, pc := here, status := .running }

end Sys2Proof.Machine
end

