-- ==== Sys2Proof/Machine/Step.lean ====
section
/-! DEFINITION. The step of the machine (40_execution_cycle.md R71) and where it fetches from. -/

namespace Sys2Proof.Machine

/-- One step. -/
def step (s : State) : Host.Outcome State Fault Refusal := cycleByStatus s

/-- `s` with the instruction Word `w` of the opcode table stored where `step` fetches next (log entries 7 and 11). -/
def State.withFetchWord (s : State) (_nbits w : Nat) : State := placeAtFetch w s

end Sys2Proof.Machine
end

