-- ==== Sys2Proof/Machine/Boundary.lean ====
section
/-! DEFINITION. What the host does to the core between steps (50_host_interface.md; 70_reset_and_hazards.md R190 to R194): reset,
load, launch, re-launch, input delivery, and what it may read of the end of a run. None of these is an instruction. -/

namespace Sys2Proof.Machine

/-- Why there is no launch. -/
inductive LaunchError where
  /-- The image has more than 100 Words: the write to address 100 fails (R153). -/
  | outOfRange
  /-- An element of the image is no Word: the image is refused as a whole (R151). The source names no error for it
  (90_conflicts.md C7; log entry 9). -/
  | notAWord
  /-- A re-launch while a run is in progress: the host may not load during a run (R158; log entry 8). -/
  | runInProgress
deriving DecidableEq, Repr

/-- The image as Words, if every element is one (R151). -/
def imageWords : List Int → Option (List Word)
  | [] => some []
  | v :: rest =>
    match Word.ofInt v, imageWords rest with
    | some w, some ws => some (w :: ws)
    | _, _ => none

/-- The loader's writes, in ascending order from an address, each through `MemWrite` (R151, 20_memory.md R32). -/
def loadFrom (a : Nat) : List Word → Memory → Except Cause Memory
  | [], m => .ok m
  | w :: ws, m =>
    match memWrite m (a : Int) w with
    | .error c => .error c
    | .ok m' => loadFrom (a + 1) ws m'

/-- Load an image from address 0 (R151). A failed load leaves no store to rely on (R153; log entry 9). -/
def load (image : List Int) (m : Memory) : Except LaunchError Memory :=
  match imageWords image with
  | none => .error .notAWord
  | some ws =>
    match loadFrom 0 ws m with
    | .error _ => .error .outOfRange
    | .ok m' => .ok m'

/-- Reset by the host, available at any time; it discards the run (70_reset_and_hazards.md R190). -/
def hostReset (_ : State) : State := State.reset

/-- Launch: reset, then load (70_reset_and_hazards.md R192); `inp` is the run's input sequence. -/
def launch (image : List Int) (inp : List Word) : Except LaunchError State :=
  match load image State.reset.mem with
  | .error e => .error e
  | .ok m => .ok { State.reset with mem := m, input := inp }

/-- Re-launch without reset, of a core whose run is over (70_reset_and_hazards.md R194). `acc0` is the free value the
accumulator then holds: any Word, so a claim must hold for every one (log entry 8). -/
def relaunch (image : List Int) (inp : List Word) (acc0 : Word) (s : State) :
    Except LaunchError State :=
  match s.status with
  | .running => .error .runInProgress
  | .halted => relaunchStopped
  | .terminated _ => relaunchStopped
where
  relaunchStopped : Except LaunchError State :=
    match load image s.mem with
    | .error e => .error e
    | .ok m =>
      .ok { mem := m, acc := acc0, pc := Config.pcReset, status := .running, input := inp, output := [],
            haltCount := 0 }

/-- The host delivers an input Word (R154). Only a Word can be delivered: the retry until one is valid is outside the core
(90_conflicts.md C8). -/
def deliverInput (v : Word) (s : State) : State := { s with input := s.input ++ [v] }

/-- The fault report (R157): the cause the host reads once the run is over, if it ended by a fault. -/
def faultReport (s : State) : Option Cause :=
  match s.status with
  | .running => none
  | .halted => none
  | .terminated c => some c

end Sys2Proof.Machine
end

