-- ==== Sys2Proof/Safety.lean ====
section
/-! DEFINITION. What counts as the end of a run and as a good one, and the invariant every step keeps. -/

namespace Sys2Proof.Machine

/-- The run is over (40_execution_cycle.md R79). -/
def State.runOver (s : State) : Prop := s.status ≠ .running

/-- The run has gone wrong: it ended by a fault of any cause (R79, 92_eei_decisions.md D26). -/
def State.goneWrong (s : State) : Prop := ∃ c, s.status = .terminated c

/-- The core is held at a READ with no input delivered (40_execution_cycle.md R81): stuck, neither over nor faulted. -/
def State.heldAtRead (s : State) : Prop :=
  s.status = .running ∧ s.pc ≤ Config.addrMax ∧ s.input = [] ∧
    ∃ aa, decode (Memory.read s.mem s.pc).val = .ok (.read aa)

/-- What the end state says about how the run ended (R79 and the end states of 60_exceptions.md R171 to R174): each fault
leaves the cursor at what raised it, and the halt notification was sent exactly if the program halted. -/
def State.endExplained (s : State) : Prop :=
  match s.status with
  | .running => s.haltCount = 0
  | .halted => s.haltCount = 1 ∧ s.pc ≤ Config.addrMax
  | .terminated .outOfRange => s.haltCount = 0 ∧ s.pc = Config.memSize
  | .terminated .divideByZero =>
      s.haltCount = 0 ∧ s.pc ≤ Config.addrMax ∧
        ∃ aa, decode (Memory.read s.mem s.pc).val = .ok (.divide aa) ∧ (Memory.read s.mem aa).val = 0
  | .terminated .invalidOperand => False
  | .terminated .unrecognizedOpcode =>
      s.haltCount = 0 ∧ s.pc ≤ Config.addrMax ∧
        ∀ i, decode (Memory.read s.mem s.pc).val ≠ .ok i

/-- The invariant of the machine: the store is in its canonical form (so within addresses 0 to 99), the cursor is 0 to 100
(10_state.md R13), and the end of the run is explained. That every cell and `acc` is a Word (10_state.md R21) holds by their
type. -/
def State.Inv (s : State) : Prop :=
  Memory.wf s.mem ∧ s.pc ≤ Config.memSize ∧ s.endExplained

end Sys2Proof.Machine
end

