-- ==== Sys2Proof/Certificates/Slice0/Obligations.lean ====
section
/-! DEFINITION. The statements for the provers, from the numbered rules of spec/. Each instruction has a statement that says
which Words encode it and that `exec` answers a next state, which one, and (by the record update) that nothing else changes. -/

open Sys2Proof Sys2Proof.Machine

/-! ### Encoding (30_encoding.md) -/

/-- R51 to R57: a decoded integer is one of the two Words, positive or negated, of exactly one well-formed instruction. -/
def Obligations.DecodeAnswersExactlyTheEncodedInstruction : Prop :=
  ∀ (w : Int) (i : Instr),
    decode w = .ok i ↔ i.wellFormed = true ∧ (w = encode i ∨ w = -encode i)

/-- Words written out from the tables of 30_encoding.md section 7 and 95_test_vectors.md section 2.1. -/
def Obligations.DecodeOfTheSpecsExampleWords : Prop :=
  decode 1007 = .ok (.read 7) ∧ decode (-1007) = .ok (.read 7) ∧ decode 1100 = .ok (.write 0) ∧
  decode 2099 = .ok (.load 99) ∧ decode (-2050) = .ok (.load 50) ∧ decode 2199 = .ok (.store 99) ∧
  decode 3000 = .ok (.add 0) ∧ decode 3101 = .ok (.subtract 1) ∧ decode 3200 = .ok (.divide 0) ∧
  decode 3310 = .ok (.multiply 10) ∧ decode 4000 = .ok (.branch 0) ∧ decode 4150 = .ok (.branchneg 50) ∧
  decode 4299 = .ok (.branchzero 99) ∧ decode (-4300) = .ok (.halt 0) ∧
  decode 0 = .error (.unrecognizedOpcode 0) ∧ decode 1200 = .error (.unrecognizedOpcode 12) ∧
  decode 4400 = .error (.unrecognizedOpcode 44) ∧ decode (-9999) = .error (.unrecognizedOpcode 99)

/-- R54, R75: the magnitudes of the 88 unrecognized opcodes, and the whole effect of executing one. -/
def Obligations.UnrecognizedMagnitudesOnlyTerminateTheRun : Prop :=
  (∀ w : Word, (∀ i, decode w.val ≠ .ok i) ↔
    (w.val.natAbs ≤ 999 ∨ (1200 ≤ w.val.natAbs ∧ w.val.natAbs ≤ 1999) ∨
     (2200 ≤ w.val.natAbs ∧ w.val.natAbs ≤ 2999) ∨ (3400 ≤ w.val.natAbs ∧ w.val.natAbs ≤ 3999) ∨
     4400 ≤ w.val.natAbs)) ∧
  ∀ s : State, s.status = .running → s.pc ≤ 99 →
    (∀ i, decode (Memory.read s.mem s.pc).val ≠ .ok i) →
    step s = .next { s with status := .terminated .unrecognizedOpcode }

/-! ### The cycle (40_execution_cycle.md) -/

/-- R71 to R73: a running core whose cursor is on a Word that decodes to `i` steps exactly as `exec i`; `step` adds nothing
around it, and `i` is well formed. -/
def Obligations.StepRunsTheDecodedInstruction : Prop :=
  ∀ (s : State) (i : Instr), s.status = .running → s.pc ≤ 99 →
    decode (Memory.read s.mem s.pc).val = .ok i →
    i.wellFormed = true ∧ step s = exec i s

/-- R77, R171: the step after running off the end faults in its fetch, and only `status` changes. -/
def Obligations.FetchBeyondTheLastCellRaisesOutOfRange : Prop :=
  ∀ s : State, s.status = .running → 99 < s.pc →
    step s = .next { s with status := .terminated .outOfRange }

/-- R78: `Halted` and `Terminated` are absorbing, for any number of steps. That the model then answers the same state, instead
of no state, is its own choice (log entry 4). -/
def Obligations.StoppedCoreNeverChanges : Prop :=
  ∀ (k : Nat) (s : State), s.status ≠ .running → Host.Core.run Sys2Proof.core k s = .next s

/-- No instruction and no step ends without a next state: nothing is refused and nothing faults out of the model (log
entry 3). -/
def Obligations.EveryInstructionAndStepAnswersANextState : Prop :=
  (∀ (i : Instr) (s : State), ∃ t, exec i s = .next t) ∧ ∀ s : State, ∃ t, step s = .next t

/-- R74: the cursor after one step of a running core that is not held at a READ. -/
def Obligations.CursorAfterAStep : Prop :=
  ∀ (s t : State), s.status = .running → ¬ s.heldAtRead → step s = .next t →
    ((∃ c, t.status = .terminated c) → t.pc = s.pc) ∧
    ((∀ c, t.status ≠ .terminated c) → ∃ i, decode (Memory.read s.mem s.pc).val = .ok i ∧
      t.pc = match i with
        | .read _ => s.pc + 1
        | .write _ => s.pc + 1
        | .load _ => s.pc + 1
        | .store _ => s.pc + 1
        | .add _ => s.pc + 1
        | .subtract _ => s.pc + 1
        | .divide _ => s.pc + 1
        | .multiply _ => s.pc + 1
        | .branch aa => aa
        | .branchneg aa => if s.acc.val < 0 then aa else s.pc + 1
        | .branchzero aa => if s.acc.val = 0 then aa else s.pc + 1
        | .halt aa => aa)

/-- R170 to R174, R177: each end of the run has exactly its condition, after one step of a running core. That a running core
has a step to a next state in every case is the model's own choice where the spec says otherwise: at a READ without input the
step is not enabled (R81), and the model answers the same state (log entry 4); a fault is a next state (log entry 3). -/
def Obligations.EachEndOfARunHasExactlyItsCause : Prop :=
  ∀ s : State, s.status = .running → ∃ t, step s = .next t ∧
    (t.status = .terminated .outOfRange ↔ 99 < s.pc) ∧
    (t.status = .terminated .unrecognizedOpcode ↔
      s.pc ≤ 99 ∧ ∀ i, decode (Memory.read s.mem s.pc).val ≠ .ok i) ∧
    (t.status = .terminated .divideByZero ↔
      s.pc ≤ 99 ∧ ∃ aa, decode (Memory.read s.mem s.pc).val = .ok (.divide aa) ∧
        (Memory.read s.mem aa).val = 0) ∧
    t.status ≠ .terminated .invalidOperand ∧
    (t.status = .halted ↔
      s.pc ≤ 99 ∧ ∃ aa, decode (Memory.read s.mem s.pc).val = .ok (.halt aa))

/-- R76, R175: whatever instruction or fetch faults, the step's only effect is on `status`; for every instruction, with any
operand, and for every step of a running core. -/
def Obligations.FaultChangesOnlyStatus : Prop :=
  (∀ (i : Instr) (s t : State) (c : Cause), s.status = .running → exec i s = .next t →
    t.status = .terminated c → t = { s with status := .terminated c }) ∧
  ∀ (s t : State) (c : Cause), s.status = .running → step s = .next t →
    t.status = .terminated c → t = { s with status := .terminated c }

/-- R82: a branch to its own address steps for ever with the state unchanged. -/
def Obligations.BranchToItselfNeverEnds : Prop :=
  ∀ (k : Nat) (s : State), s.status = .running → s.pc ≤ 99 →
    decode (Memory.read s.mem s.pc).val = .ok (.branch s.pc) →
    Host.Core.run Sys2Proof.core k s = .next s

/-! ### Memory (20_memory.md) -/

/-- R31: `MemRead`, over arbitrary integer addresses. -/
def Obligations.MemReadChecksItsBounds : Prop :=
  ∀ (m : Memory) (a : Int),
    ((a < 0 ∨ 99 < a) → memRead m a = .error .outOfRange) ∧
    (0 ≤ a → a ≤ 99 → memRead m a = .ok (Memory.read m a.toNat))

/-- R32: `MemWrite`, over arbitrary integer addresses: the Word is stored unchanged and every other cell is as before. -/
def Obligations.MemWriteChecksItsBoundsAndStoresOneWord : Prop :=
  ∀ (m : Memory) (a : Int) (v : Word),
    ((a < 0 ∨ 99 < a) → memWrite m a v = .error .outOfRange) ∧
    (0 ≤ a → a ≤ 99 → ∃ m', memWrite m a v = .ok m' ∧ Memory.read m' a.toNat = v ∧
      ∀ b : Nat, b ≠ a.toNat → Memory.read m' b = Memory.read m b)

/-- The canonical form is canonical: two stores that read alike at 0 to 99 are the same data (log entry 1). -/
def Obligations.CanonicalStoresThatReadAlikeAreEqual : Prop :=
  ∀ m n : Memory, Memory.wf m → Memory.wf n →
    (∀ a : Nat, a ≤ 99 → Memory.read m a = Memory.read n a) → m = n

/-- R35: STORE then LOAD on the same address, with nothing between. -/
def Obligations.StoreThenLoadGivesTheStoredWord : Prop :=
  ∀ (s : State) (aa : Nat), aa ≤ 99 →
    ∃ t u, exec (.store aa) s = .next t ∧ exec (.load aa) t = .next u ∧
      u.acc = s.acc ∧ Memory.read u.mem aa = s.acc ∧
      (∀ a, a ≠ aa → Memory.read u.mem a = Memory.read s.mem a) ∧
      u = { s with mem := u.mem, pc := s.pc + 2 }

/-- R41: a Word stored by STORE or READ at the next address is executed by the very next step. -/
def Obligations.StoredInstructionRunsAtTheNextStep : Prop :=
  (∀ (s : State) (i : Instr), s.status = .running → s.pc ≤ 98 →
    decode (Memory.read s.mem s.pc).val = .ok (.store (s.pc + 1)) → decode s.acc.val = .ok i →
    ∃ t, step s = .next t ∧ t.pc = s.pc + 1 ∧ step t = exec i t) ∧
  ∀ (s : State) (v : Word) (rest : List Word) (i : Instr), s.status = .running → s.pc ≤ 98 →
    decode (Memory.read s.mem s.pc).val = .ok (.read (s.pc + 1)) → s.input = v :: rest →
    decode v.val = .ok i →
    ∃ t, step s = .next t ∧ t.pc = s.pc + 1 ∧ step t = exec i t

/-- R37, R11: a step changes a cell only as the operand of a READ or a STORE. -/
def Obligations.OnlyReadAndStoreChangeACell : Prop :=
  ∀ (s t : State) (a : Nat), step s = .next t → Memory.read t.mem a ≠ Memory.read s.mem a →
    s.status = .running ∧ s.pc ≤ 99 ∧
      (decode (Memory.read s.mem s.pc).val = .ok (.read a) ∨
       decode (Memory.read s.mem s.pc).val = .ok (.store a))

/-- R12: a step changes the accumulator only by LOAD and the four arithmetic instructions. -/
def Obligations.OnlyLoadAndArithmeticChangeTheAccumulator : Prop :=
  ∀ s t : State, step s = .next t → t.acc ≠ s.acc →
    s.status = .running ∧ s.pc ≤ 99 ∧ ∃ aa, aa ≤ 99 ∧
      (decode (Memory.read s.mem s.pc).val = .ok (.load aa) ∨
       decode (Memory.read s.mem s.pc).val = .ok (.add aa) ∨
       decode (Memory.read s.mem s.pc).val = .ok (.subtract aa) ∨
       decode (Memory.read s.mem s.pc).val = .ok (.divide aa) ∨
       decode (Memory.read s.mem s.pc).val = .ok (.multiply aa))

/-! ### READ and WRITE (41_io.md) -/

/-- R90: READ stores the oldest delivered Word and consumes it; at address 99 the step after it faults. -/
def Obligations.ReadStoresTheNextInputWord : Prop :=
  (∀ w : Int, 1000 ≤ w.natAbs → w.natAbs ≤ 1099 → decode w = .ok (.read (w.natAbs - 1000))) ∧
  ∀ (s : State) (aa : Nat) (v : Word) (rest : List Word), aa ≤ 99 → s.input = v :: rest →
    ∃ t, exec (.read aa) s = .next t ∧ Memory.read t.mem aa = v ∧
      (∀ a, a ≠ aa → Memory.read t.mem a = Memory.read s.mem a) ∧
      t = { s with mem := t.mem, input := rest, pc := s.pc + 1 } ∧
      (s.status = .running → s.pc = 99 → step t = .next { t with status := .terminated .outOfRange })

/-- R81: a READ with no input holds the core, state unchanged, for any number of steps, and the delivery of a Word lifts the
hold. That a held step answers the same state is the model's rendering of a step that is not enabled (log entry 4). -/
def Obligations.ReadIsHeldUntilAWordIsDelivered : Prop :=
  ∀ (s : State) (aa : Nat), s.status = .running → s.pc ≤ 99 → s.input = [] →
    decode (Memory.read s.mem s.pc).val = .ok (.read aa) →
    (∀ k, Host.Core.run Sys2Proof.core k s = .next s) ∧
    ∀ v, ∃ t, step (deliverInput v s) = .next t ∧ Memory.read t.mem aa = v ∧
      (∀ a, a ≠ aa → Memory.read t.mem a = Memory.read s.mem a) ∧
      t = { s with mem := t.mem, pc := s.pc + 1 }

/-- R91: WRITE emits the cell; the accumulator and the store take no part in the change. -/
def Obligations.WriteEmitsTheCell : Prop :=
  (∀ w : Int, 1100 ≤ w.natAbs → w.natAbs ≤ 1199 → decode w = .ok (.write (w.natAbs - 1100))) ∧
  ∀ (s : State) (aa : Nat), aa ≤ 99 →
    ∃ t, exec (.write aa) s = .next t ∧
      t = { s with output := s.output ++ [Memory.read s.mem aa], pc := s.pc + 1 } ∧
      (s.status = .running → s.pc = 99 → step t = .next { t with status := .terminated .outOfRange })

/-- R155: a step appends to `out` exactly by a WRITE, and then the one Word of its cell. -/
def Obligations.OutputGrowsExactlyByWrite : Prop :=
  ∀ s t : State, step s = .next t →
    (s.status = .running → s.pc ≤ 99 → ∀ aa, decode (Memory.read s.mem s.pc).val = .ok (.write aa) →
      t.output = s.output ++ [Memory.read s.mem aa]) ∧
    (¬ (s.status = .running ∧ s.pc ≤ 99 ∧ ∃ aa, decode (Memory.read s.mem s.pc).val = .ok (.write aa)) →
      t.output = s.output)

/-- R155: over any number of steps, nothing emitted is withdrawn or reordered. -/
def Obligations.OutputIsNeverWithdrawn : Prop :=
  ∀ (k : Nat) (s t : State), Host.Core.run Sys2Proof.core k s = .next t → s.output <+: t.output

/-- R154: a step consumes input exactly by a READ, one Word, the oldest. -/
def Obligations.InputIsConsumedExactlyByRead : Prop :=
  ∀ s t : State, step s = .next t →
    (s.status = .running → s.pc ≤ 99 → ∀ aa v rest,
      decode (Memory.read s.mem s.pc).val = .ok (.read aa) → s.input = v :: rest → t.input = rest) ∧
    (¬ (s.status = .running ∧ s.pc ≤ 99 ∧ ∃ aa, decode (Memory.read s.mem s.pc).val = .ok (.read aa)) →
      t.input = s.input)

/-- R154, R80: Words that a run does not consume are never seen by the core: with any further Words waiting behind them, a run
that does not end held at a READ passes to the same state, those Words still waiting. -/
def Obligations.UnconsumedInputIsNeverSeen : Prop :=
  ∀ (extra : List Word) (k : Nat) (s t : State), Host.Core.run Sys2Proof.core k s = .next t →
    ¬ t.heldAtRead →
    Host.Core.run Sys2Proof.core k { s with input := s.input ++ extra } =
      .next { t with input := t.input ++ extra }

/-! ### LOAD and STORE (42_load_store.md) -/

/-- R100: the cell is copied and `mem` is unchanged; at address 99 the step after it faults. -/
def Obligations.LoadCopiesTheCellIntoTheAccumulator : Prop :=
  (∀ w : Int, 2000 ≤ w.natAbs → w.natAbs ≤ 2099 → decode w = .ok (.load (w.natAbs - 2000))) ∧
  ∀ (s : State) (aa : Nat), aa ≤ 99 →
    ∃ t, exec (.load aa) s = .next t ∧ t = { s with acc := Memory.read s.mem aa, pc := s.pc + 1 } ∧
      (s.status = .running → s.pc = 99 → step t = .next { t with status := .terminated .outOfRange })

/-- R101, the law of its corner case (d) among it: a LOAD of the same address gives the stored Word back. -/
def Obligations.StoreCopiesTheAccumulatorIntoTheCell : Prop :=
  (∀ w : Int, 2100 ≤ w.natAbs → w.natAbs ≤ 2199 → decode w = .ok (.store (w.natAbs - 2100))) ∧
  ∀ (s : State) (aa : Nat), aa ≤ 99 →
    ∃ t, exec (.store aa) s = .next t ∧ Memory.read t.mem aa = s.acc ∧
      (∀ a, a ≠ aa → Memory.read t.mem a = Memory.read s.mem a) ∧
      t = { s with mem := t.mem, pc := s.pc + 1 } ∧
      exec (.load aa) t = .next { t with acc := s.acc, pc := s.pc + 2 } ∧
      (s.status = .running → s.pc = 99 → step t = .next { t with status := .terminated .outOfRange })

/-! ### Arithmetic (43_arithmetic.md) -/

/-- R110: the formula of `trunc4`, its two equivalent statements by the quotient rounded toward zero, and (a) to (e). -/
def Obligations.TruncationKeepsFourDigitsAndTheSign : Prop :=
  ∀ v : Int, trunc4 v = v.sign * ((v.natAbs % 10000 : Nat) : Int) ∧
    trunc4 v = Int.tmod v 10000 ∧ trunc4 v = v - 10000 * Int.tdiv v 10000 ∧
    |trunc4 v| ≤ 9999 ∧ (trunc4 v = v ↔ |v| ≤ 9999) ∧ trunc4 (-v) = -trunc4 v ∧
    (trunc4 v = 0 ∨ (trunc4 v).sign = v.sign) ∧ (10000 : Int) ∣ trunc4 v - v

/-- R111: floor division is the greatest integer not above the rational quotient, with the remainder of the divisor's sign. -/
def Obligations.FloorDivIsTheGreatestIntegerBelowTheQuotient : Prop :=
  ∀ a b : Int, b ≠ 0 →
    IsGreatest { q : Int | (q : ℚ) ≤ (a : ℚ) / (b : ℚ) } (floorDiv a b) ∧
    ∃ r : Int, a = floorDiv a b * b + r ∧ (r = 0 ∨ r.sign = b.sign) ∧ |r| < |b|

/-- R113: the exact sum truncated, piece by piece. -/
def Obligations.AddTruncatesTheExactSum : Prop :=
  (∀ w : Int, 3000 ≤ w.natAbs → w.natAbs ≤ 3099 → decode w = .ok (.add (w.natAbs - 3000))) ∧
  ∀ (s : State) (aa : Nat) (v : Int), aa ≤ 99 → v = s.acc.val + (Memory.read s.mem aa).val →
    |v| ≤ 19998 ∧
    ∃ t, exec (.add aa) s = .next t ∧ t = { s with acc := t.acc, pc := s.pc + 1 } ∧
      t.acc.val = v.sign * ((v.natAbs % 10000 : Nat) : Int) ∧
      (|v| ≤ 9999 → t.acc.val = v) ∧ (10000 ≤ v → t.acc.val = v - 10000) ∧
      (v ≤ -10000 → t.acc.val = v + 10000)

/-- R114: the exact difference `acc - m` truncated, piece by piece. -/
def Obligations.SubtractTruncatesTheExactDifference : Prop :=
  (∀ w : Int, 3100 ≤ w.natAbs → w.natAbs ≤ 3199 → decode w = .ok (.subtract (w.natAbs - 3100))) ∧
  ∀ (s : State) (aa : Nat) (v : Int), aa ≤ 99 → v = s.acc.val - (Memory.read s.mem aa).val →
    |v| ≤ 19998 ∧
    ∃ t, exec (.subtract aa) s = .next t ∧ t = { s with acc := t.acc, pc := s.pc + 1 } ∧
      t.acc.val = v.sign * ((v.natAbs % 10000 : Nat) : Int) ∧
      (|v| ≤ 9999 → t.acc.val = v) ∧ (10000 ≤ v → t.acc.val = v - 10000) ∧
      (v ≤ -10000 → t.acc.val = v + 10000)

/-- R115: with a divisor other than 0 the quotient is the greatest integer not above the rational quotient, never truncated;
with 0 the run ends, whatever the dividend, and only `status` changes. -/
def Obligations.DivideFloorsOrRaisesDivideByZero : Prop :=
  (∀ w : Int, 3200 ≤ w.natAbs → w.natAbs ≤ 3299 → decode w = .ok (.divide (w.natAbs - 3200))) ∧
  ∀ (s : State) (aa : Nat), aa ≤ 99 →
    ((Memory.read s.mem aa).val ≠ 0 →
      ∃ t, exec (.divide aa) s = .next t ∧ t = { s with acc := t.acc, pc := s.pc + 1 } ∧
        IsGreatest { q : Int | (q : ℚ) ≤ (s.acc.val : ℚ) / ((Memory.read s.mem aa).val : ℚ) } t.acc.val) ∧
    ((Memory.read s.mem aa).val = 0 →
      exec (.divide aa) s = .next { s with status := .terminated .divideByZero })

/-- R116: the low four digits of the exact product, with its sign. -/
def Obligations.MultiplyKeepsTheLowFourDigitsOfTheProduct : Prop :=
  (∀ w : Int, 3300 ≤ w.natAbs → w.natAbs ≤ 3399 → decode w = .ok (.multiply (w.natAbs - 3300))) ∧
  ∀ (s : State) (aa : Nat) (v : Int), aa ≤ 99 → v = s.acc.val * (Memory.read s.mem aa).val →
    |v| ≤ 99980001 ∧
    ∃ t, exec (.multiply aa) s = .next t ∧ t = { s with acc := t.acc, pc := s.pc + 1 } ∧
      t.acc.val = v.sign * ((v.natAbs % 10000 : Nat) : Int) ∧
      |t.acc.val| ≤ 9999 ∧ (10000 : Int) ∣ t.acc.val - v ∧
      (t.acc.val = 0 ↔ (10000 : Int) ∣ v) ∧ (t.acc.val = 0 ∨ t.acc.val.sign = v.sign)

/-! ### Control flow (44_control.md) -/

/-- R130: the Control Unit over arbitrary integers, -1 and 100 among them. -/
def Obligations.BranchTargetIsValidExactlyFrom0To99 : Prop :=
  ∀ (target : Int) (s : State),
    (0 ≤ target → target ≤ 99 → branchTo target s = .next { s with pc := target.toNat }) ∧
    ((target < 0 ∨ 99 < target) → branchTo target s = .next { s with status := .terminated .outOfRange })

/-- R131: the cursor takes the operand, with no advance on top, and nothing else changes. -/
def Obligations.BranchAssignsTheCursor : Prop :=
  (∀ w : Int, 4000 ≤ w.natAbs → w.natAbs ≤ 4099 → decode w = .ok (.branch (w.natAbs - 4000))) ∧
  ∀ (s : State) (aa : Nat), aa ≤ 99 → exec (.branch aa) s = .next { s with pc := aa }

/-- R132: taken exactly if `acc < 0`; only the cursor changes. -/
def Obligations.BranchnegIsTakenExactlyIfNegative : Prop :=
  (∀ w : Int, 4100 ≤ w.natAbs → w.natAbs ≤ 4199 → decode w = .ok (.branchneg (w.natAbs - 4100))) ∧
  ∀ (s : State) (aa : Nat), aa ≤ 99 →
    (s.acc.val < 0 → exec (.branchneg aa) s = .next { s with pc := aa }) ∧
    (0 ≤ s.acc.val → ∃ t, exec (.branchneg aa) s = .next t ∧ t = { s with pc := s.pc + 1 } ∧
      (s.status = .running → s.pc = 99 → step t = .next { t with status := .terminated .outOfRange }))

/-- R133: taken exactly if `acc = 0`; only the cursor changes. -/
def Obligations.BranchzeroIsTakenExactlyIfZero : Prop :=
  (∀ w : Int, 4200 ≤ w.natAbs → w.natAbs ≤ 4299 → decode w = .ok (.branchzero (w.natAbs - 4200))) ∧
  ∀ (s : State) (aa : Nat), aa ≤ 99 →
    (s.acc.val = 0 → exec (.branchzero aa) s = .next { s with pc := aa }) ∧
    (s.acc.val ≠ 0 → ∃ t, exec (.branchzero aa) s = .next t ∧ t = { s with pc := s.pc + 1 } ∧
      (s.status = .running → s.pc = 99 → step t = .next { t with status := .terminated .outOfRange }))

/-- R134: the cursor takes the operand, the run ends and the host is notified once. The last clause is not R134's: that a
halted core does not change is R78, and that its step answers the same state, where the spec says that no step is taken, is the
model's own choice (log entry 4). -/
def Obligations.HaltStopsNotifiesAndAssignsTheCursor : Prop :=
  (∀ w : Int, 4300 ≤ w.natAbs → w.natAbs ≤ 4399 → decode w = .ok (.halt (w.natAbs - 4300))) ∧
  ∀ (s : State) (aa : Nat), aa ≤ 99 →
    ∃ t, exec (.halt aa) s = .next t ∧
      t = { s with pc := aa, status := .halted, haltCount := s.haltCount + 1 } ∧ step t = .next t

/-- R156: one notification by the step that halts, none by any other, whatever ends the run. -/
def Obligations.HaltNotificationIsSentExactlyByHalt : Prop :=
  ∀ s t : State, step s = .next t →
    (s.status = .running → t.status = .halted →
      t.haltCount = s.haltCount + 1 ∧ ∃ aa, decode (Memory.read s.mem s.pc).val = .ok (.halt aa)) ∧
    (¬ (s.status = .running ∧ t.status = .halted) → t.haltCount = s.haltCount)

/-- The operands 100 and above, which no Word encodes (R52): the bounds checks of R31, R32 and R130 raise `OutOfRange`, an
untaken branch does not check, and HALT does not validate (R134). The order in READ is R90's: the input is requested first
(log entry 12). -/
def Obligations.OperandsAbove99MeetTheDeadChecks : Prop :=
  ∀ (s : State) (aa : Nat), 99 < aa →
    (∀ i ∈ [Instr.write aa, .load aa, .store aa, .add aa, .subtract aa, .divide aa, .multiply aa, .branch aa],
      exec i s = .next { s with status := .terminated .outOfRange }) ∧
    (s.input ≠ [] → exec (.read aa) s = .next { s with status := .terminated .outOfRange }) ∧
    (s.acc.val < 0 → exec (.branchneg aa) s = .next { s with status := .terminated .outOfRange }) ∧
    (0 ≤ s.acc.val → exec (.branchneg aa) s = .next { s with pc := s.pc + 1 }) ∧
    (s.acc.val = 0 → exec (.branchzero aa) s = .next { s with status := .terminated .outOfRange }) ∧
    (s.acc.val ≠ 0 → exec (.branchzero aa) s = .next { s with pc := s.pc + 1 }) ∧
    exec (.halt aa) s = .next { s with pc := aa, status := .halted, haltCount := s.haltCount + 1 }

/-! ### Reset, launch, re-launch (70_reset_and_hazards.md, 50_host_interface.md) -/

/-- R22, R190: the reset values, from whatever state the host resets. Nothing is said of `input`, for which the spec gives
none. -/
def Obligations.ResetStateHoldsTheSpecsValues : Prop :=
  (∀ s : State, hostReset s = State.reset) ∧
  (∀ a : Nat, a ≤ 99 → (Memory.read State.reset.mem a).val = 0) ∧ State.reset.acc.val = 0 ∧
  State.reset.pc = 0 ∧ State.reset.status = .running ∧ State.reset.output = [] ∧
  State.reset.haltCount = 0

/-- R192: the launch state is a function of the image and the input sequence. -/
def Obligations.LaunchStateIsAFunctionOfTheImage : Prop :=
  ∀ (image : List Int) (inp : List Word), image.length ≤ 100 →
    (∀ v ∈ image, -9999 ≤ v ∧ v ≤ 9999) →
    ∃ s, launch image inp = .ok s ∧
      (∀ (k : Nat) (h : k < image.length), (Memory.read s.mem k).val = image[k]) ∧
      (∀ k, image.length ≤ k → (Memory.read s.mem k).val = 0) ∧
      s.acc.val = 0 ∧ s.pc = 0 ∧ s.status = .running ∧ s.output = [] ∧ s.haltCount = 0 ∧ s.input = inp

/-- R153: a launch exists exactly for an image of at most 100 elements, each a Word. -/
def Obligations.LaunchExistsExactlyForAnImageOfWords : Prop :=
  ∀ (image : List Int) (inp : List Word),
    (∃ s, launch image inp = .ok s) ↔
      image.length ≤ 100 ∧ ∀ v ∈ image, -9999 ≤ v ∧ v ≤ 9999

/-- R194, R160: a re-launch keeps the tail of the store and leaves the accumulator free. That it is refused during a run is
the model's choice (log entry 8). -/
def Obligations.RelaunchKeepsTheTailAndFreesTheAccumulator : Prop :=
  ∀ (image : List Int) (inp : List Word) (acc0 : Word) (s : State),
    (s.status = .running → relaunch image inp acc0 s = .error .runInProgress) ∧
    (s.status ≠ .running → image.length ≤ 100 → (∀ v ∈ image, -9999 ≤ v ∧ v ≤ 9999) →
      ∃ t, relaunch image inp acc0 s = .ok t ∧
        (∀ (k : Nat) (h : k < image.length), (Memory.read t.mem k).val = image[k]) ∧
        (∀ k, image.length ≤ k → Memory.read t.mem k = Memory.read s.mem k) ∧
        t.acc = acc0 ∧ t.pc = 0 ∧ t.status = .running ∧ t.output = [] ∧ t.haltCount = 0 ∧ t.input = inp)

/-- The Word the host places by `withFetchWord` is the one the next step runs (log entries 7 and 11). -/
def Obligations.WithFetchWordRunsThePlacedWord : Prop :=
  ∀ (s : State) (nbits w : Nat) (i : Instr), decodeTableWord nbits w = some i →
    step (s.withFetchWord nbits w) = exec i (s.withFetchWord nbits w)

/-! ### The invariant -/

/-- The invariant holds of the reset state. -/
def Obligations.ResetStateMeetsTheInvariant : Prop := State.reset.Inv

/-- Every step keeps the invariant: canonical store within 0 to 99, cursor within 0 to 100, and an end state that says how the
run ended (R13, R79, R156, R171 to R174). -/
def Obligations.EveryStepKeepsTheInvariant : Prop :=
  ∀ s t : State, s.Inv → step s = .next t → t.Inv

/-- Whatever the image, the input and the number of steps, the state reached from a launch meets the invariant. -/
def Obligations.EveryStateReachedFromALaunchMeetsTheInvariant : Prop :=
  ∀ (image : List Int) (inp : List Word) (k : Nat) (s t : State), launch image inp = .ok s →
    Host.Core.run Sys2Proof.core k s = .next t → t.Inv

/-- R79, R156, R157: a run from a launch that is over ended by HALT, with one notification and no fault report, or by a fault,
with no notification and a report of its cause, which is never `InvalidOperand`. -/
def Obligations.ARunEndsByHaltOrByAReportedFault : Prop :=
  ∀ (image : List Int) (inp : List Word) (k : Nat) (s t : State), launch image inp = .ok s →
    Host.Core.run Sys2Proof.core k s = .next t → t.runOver →
    (t.status = .halted ∧ t.haltCount = 1 ∧ faultReport t = none) ∨
    (t.goneWrong ∧ t.haltCount = 0 ∧ ∃ c, c ≠ .invalidOperand ∧ faultReport t = some c)
end

