-- ==== Sys2Proof/Laws/Arithmetic.lean ====
section
/-! SUPPORT. The two arithmetic primitives in terms of the integer remainder (43_arithmetic.md R110, R111). -/

namespace Sys2Proof.Machine

/-- Truncation by the sign of its argument, in a form that linear arithmetic reads. -/
theorem trunc4_cases (v : Int) :
    (0 ≤ v ∧ trunc4 v = v % 10000) ∨ (v < 0 ∧ trunc4 v = -((-v) % 10000)) := by
  unfold trunc4
  rcases lt_trichotomy v 0 with h | h | h
  · refine .inr ⟨h, ?_⟩
    rw [Int.sign_eq_neg_one_of_neg h]
    simp only [Config.wordMod]
    omega
  · subst h
    exact .inl ⟨le_refl _, by simp⟩
  · refine .inl ⟨h.le, ?_⟩
    rw [Int.sign_eq_one_of_pos h]
    simp only [Config.wordMod]
    omega

/-- Floor division with its remainder gives the dividend back. -/
theorem floorDiv_mul_add_fmod (a b : Int) : floorDiv a b * b + Int.fmod a b = a := by
  rw [floorDiv, mul_comm]
  exact Int.mul_fdiv_add_fmod a b

end Sys2Proof.Machine
end

