-- ==== Sys2Proof/Laws/Memory.lean ====
section
/-! SUPPORT. The laws of the store: a read after a write (20_memory.md R35), the canonical form, and what the two
bounds-checked primitives can answer (R31, R32). -/

namespace Sys2Proof.Machine

/-! ### Reading -/

/-- Dropping the cells of one address leaves every other cell alone. -/
theorem Memory.read_filter_of_ne (m : Memory) {a b : Nat} (h : b ≠ a) :
    Memory.read (m.filter (fun e => e.1 ≠ a)) b = Memory.read m b := by
  induction m with
  | nil => rfl
  | cons e rest ih =>
    obtain ⟨k, v⟩ := e
    by_cases hk : k = a
    · subst hk
      simp only [ne_eq, not_true_eq_false, decide_false, Bool.false_eq_true, not_false_eq_true,
        List.filter_cons_of_neg, Memory.read, if_neg (Ne.symm h)]
      simpa using ih
    · rw [List.filter_cons_of_pos (by simpa using hk)]
      simp only [Memory.read]
      rw [ih]

/-- With the cells of an address dropped, it reads as the unlisted content. -/
theorem Memory.read_of_not_mem (m : Memory) (a : Nat) (h : ∀ e ∈ m, e.1 ≠ a) :
    Memory.read m a = Word.zero := by
  induction m with
  | nil => rfl
  | cons e rest ih =>
    obtain ⟨k, v⟩ := e
    have hk : k ≠ a := h (k, v) (List.mem_cons_self ..)
    simp only [Memory.read, if_neg hk]
    exact ih fun e he => h e (List.mem_cons_of_mem _ he)

/-- A cell put in its place is read back, and hides no other. -/
theorem Memory.read_insert (m : Memory) (a b : Nat) (v : Word) (h : ∀ e ∈ m, e.1 ≠ a) :
    Memory.read (Memory.insert a v m) b = if b = a then v else Memory.read m b := by
  induction m with
  | nil =>
    by_cases hb : b = a
    · simp [Memory.insert, Memory.read, hb]
    · simp [Memory.insert, Memory.read, hb, Ne.symm hb]
  | cons e rest ih =>
    obtain ⟨k, x⟩ := e
    have hk : k ≠ a := h (k, x) (List.mem_cons_self ..)
    have ih' := ih fun e he => h e (List.mem_cons_of_mem _ he)
    simp only [Memory.insert]
    split
    · by_cases hb : b = a
      · simp [Memory.read, hb]
      · simp [Memory.read, hb, Ne.symm hb]
    · simp only [Memory.read]
      by_cases hkb : k = b
      · subst hkb
        simp [hk]
      · simp [hkb, ih']

/-- Read after write: the Word written where it was written, everything else as before (R35). -/
theorem Memory.read_write (m : Memory) (a b : Nat) (v : Word) :
    Memory.read (Memory.write m a v) b = if b = a then v else Memory.read m b := by
  have hno : ∀ e ∈ m.filter (fun e => e.1 ≠ a), e.1 ≠ a := by
    intro e he
    simpa using (List.mem_filter.1 he).2
  unfold Memory.write
  by_cases hv : v = Word.zero
  · simp only [if_pos hv]
    by_cases hb : b = a
    · subst hb
      simp only [hv]
      exact Memory.read_of_not_mem _ _ hno
    · simp only [if_neg hb]
      exact Memory.read_filter_of_ne m hb
  · simp only [if_neg hv]
    rw [Memory.read_insert _ _ _ _ hno]
    by_cases hb : b = a
    · simp [hb]
    · simp only [if_neg hb]
      exact Memory.read_filter_of_ne m hb

@[simp] theorem Memory.read_write_same (m : Memory) (a : Nat) (v : Word) :
    Memory.read (Memory.write m a v) a = v := by simp [Memory.read_write]

theorem Memory.read_write_of_ne (m : Memory) {a b : Nat} (v : Word) (h : b ≠ a) :
    Memory.read (Memory.write m a v) b = Memory.read m b := by simp [Memory.read_write, h]

/-! ### The canonical form -/

/-- Every cell of an inserted list is the new one or an old one. -/
theorem Memory.mem_insert (m : Memory) (a : Nat) (v : Word) (e : Nat × Word) :
    e ∈ Memory.insert a v m ↔ e = (a, v) ∨ e ∈ m := by
  induction m with
  | nil => simp [Memory.insert]
  | cons x rest ih =>
    obtain ⟨k, y⟩ := x
    simp only [Memory.insert]
    split
    · simp
    · simp only [List.mem_cons, ih]
      tauto

/-- Insertion keeps the addresses strictly rising. -/
theorem Memory.insert_pairwise (m : Memory) (a : Nat) (v : Word)
    (hs : m.Pairwise (fun x y => x.1 < y.1)) (h : ∀ e ∈ m, e.1 ≠ a) :
    (Memory.insert a v m).Pairwise (fun x y => x.1 < y.1) := by
  induction m with
  | nil => simp [Memory.insert]
  | cons x rest ih =>
    obtain ⟨k, y⟩ := x
    have hk : k ≠ a := h (k, y) (List.mem_cons_self ..)
    obtain ⟨hhead, htail⟩ := List.pairwise_cons.1 hs
    simp only [Memory.insert]
    split
    case isTrue hlt =>
      refine List.pairwise_cons.2 ⟨fun e he => ?_, hs⟩
      rcases List.mem_cons.1 he with rfl | he
      · exact hlt
      · exact lt_trans hlt (hhead e he)
    case isFalse hge =>
      refine List.pairwise_cons.2 ⟨fun e he => ?_, ih htail fun e he => h e (List.mem_cons_of_mem _ he)⟩
      rcases (Memory.mem_insert rest a v e).1 he with rfl | he
      · exact lt_of_le_of_ne (not_lt.1 hge) hk
      · exact hhead e he

/-- A write at an existing address keeps the canonical form. -/
theorem Memory.write_wf {m : Memory} (hm : Memory.wf m) {a : Nat} (ha : a ≤ 99) (v : Word) :
    Memory.wf (Memory.write m a v) := by
  obtain ⟨hs, hcells⟩ := hm
  have hs' : (m.filter (fun e => e.1 ≠ a)).Pairwise (fun x y => x.1 < y.1) := hs.filter _
  have hno : ∀ e ∈ m.filter (fun e => e.1 ≠ a), e.1 ≠ a := by
    intro e he
    simpa using (List.mem_filter.1 he).2
  have hcells' : ∀ e ∈ m.filter (fun e => e.1 ≠ a), e.1 ≤ Config.addrMax ∧ e.2 ≠ Word.zero :=
    fun e he => hcells e (List.mem_filter.1 he).1
  unfold Memory.write
  by_cases hv : v = Word.zero
  · simp only [if_pos hv]
    exact ⟨hs', hcells'⟩
  · simp only [if_neg hv]
    refine ⟨Memory.insert_pairwise _ _ _ hs' hno, fun e he => ?_⟩
    rcases (Memory.mem_insert _ _ _ _).1 he with rfl | he
    · exact ⟨ha, hv⟩
    · exact hcells' e he

/-- The reset store has the canonical form. -/
theorem Memory.reset_wf : Memory.wf State.reset.mem := by decide

/-! ### The bounds-checked primitives -/

/-- On an address 0 to 99 `MemRead` answers the cell. -/
@[simp] theorem memRead_of_le (m : Memory) {a : Nat} (h : a ≤ 99) :
    memRead m (a : Int) = .ok (Memory.read m a) := by
  unfold memRead
  rw [if_neg (by simp only [Config.addrMax]; omega)]
  simp

/-- Above 99 `MemRead` raises `OutOfRange`. -/
theorem memRead_of_gt (m : Memory) {a : Nat} (h : 99 < a) :
    memRead m (a : Int) = .error .outOfRange := by
  unfold memRead
  rw [if_pos (by simp only [Config.addrMax]; omega)]

/-- On an address 0 to 99 `MemWrite` answers the written store. -/
@[simp] theorem memWrite_of_le (m : Memory) {a : Nat} (v : Word) (h : a ≤ 99) :
    memWrite m (a : Int) v = .ok (Memory.write m a v) := by
  unfold memWrite
  rw [if_neg (by simp only [Config.addrMax]; omega)]
  simp

/-- Above 99 `MemWrite` raises `OutOfRange`. -/
theorem memWrite_of_gt (m : Memory) {a : Nat} (v : Word) (h : 99 < a) :
    memWrite m (a : Int) v = .error .outOfRange := by
  unfold memWrite
  rw [if_pos (by simp only [Config.addrMax]; omega)]

/-- `MemWrite` keeps the canonical form: it writes only where there is a cell. -/
theorem memWrite_wf {m m' : Memory} (hm : Memory.wf m) {a : Int} {v : Word}
    (h : memWrite m a v = .ok m') : Memory.wf m' := by
  unfold memWrite at h
  split at h
  · cases h
  case isFalse hb =>
    cases h
    exact Memory.write_wf hm (by simp only [Config.addrMax] at hb; omega) v

end Sys2Proof.Machine
end

