-- ==== Sys2Proof/Laws/Boundary.lean ====
section
/-! SUPPORT. What the loader's parts can answer (50_host_interface.md R151, R153). -/

namespace Sys2Proof.Machine

/-- An integer in the range is its Word. -/
theorem ofInt_of_inRange {v : Int} (h : -9999 ≤ v ∧ v ≤ 9999) : Word.ofInt v = some ⟨v, h⟩ := by
  unfold Word.ofInt
  rw [dif_pos h]

/-- A Word made of an integer has its value. -/
theorem val_of_ofInt {v : Int} {w : Word} (h : Word.ofInt v = some w) : w.val = v := by
  unfold Word.ofInt at h
  split at h
  · cases h; rfl
  · cases h

/-- The image is taken as Words exactly if these have its values. -/
theorem imageWords_eq_some {image : List Int} {ws : List Word} :
    imageWords image = some ws ↔ ws.map Word.val = image := by
  induction image generalizing ws with
  | nil =>
    cases ws with
    | nil => exact ⟨fun _ => rfl, fun _ => rfl⟩
    | cons w ws' => exact ⟨fun h => (by cases h), fun h => (by cases h)⟩
  | cons v rest ih =>
    constructor
    · intro h
      simp only [imageWords] at h
      split at h
      case h_1 w ws' hw hws =>
        cases h
        rw [List.map_cons, val_of_ofInt hw, ih.1 hws]
      case h_2 => cases h
    · intro h
      cases ws with
      | nil => cases h
      | cons w ws' =>
        rw [List.map_cons] at h
        cases h
        simp only [imageWords, ofInt_of_inRange w.inRange, ih.2 rfl]

/-- The loader keeps the canonical form. -/
theorem loadFrom_wf (ws : List Word) :
    ∀ (a : Nat) (m m' : Memory), Memory.wf m → loadFrom a ws m = .ok m' → Memory.wf m' := by
  induction ws with
  | nil => intro a m m' hm h; cases h; exact hm
  | cons w ws ih =>
    intro a m m' hm h
    simp only [loadFrom] at h
    split at h
    · cases h
    case h_2 m1 h1 => exact ih _ _ _ (memWrite_wf hm h1) h

end Sys2Proof.Machine
end

