-- ==== Sys2Proof/Laws/PerInstr.lean ====
section
/-! SUPPORT. The encoder against the decoder's field split (30_encoding.md R50 to R52), one lemma per instruction. -/

namespace Sys2Proof.Laws

/-- The two fields of the encoded Word of a well-formed instruction, with either sign, are its opcode and its operand. -/
def EncodedFields.Statement (i : Instr) : Prop :=
  i.wellFormed = true →
    decodeFields (encode i) = (opcodeOf i, i.operand) ∧ decodeFields (-encode i) = (opcodeOf i, i.operand)

/-- Splitting `op * 100 + aa` at a two-digit operand gives the two fields back. -/
theorem fields_of_sum (op aa : Nat) (h : aa ≤ 99) :
    (op * 100 + aa) / 100 = op ∧ (op * 100 + aa) % 100 = aa := by omega

/-- The statement holds of any instruction whose operand has two digits: the encoder is the digit sum. -/
theorem encodedFields_of_operand_le (i : Instr) (h : i.operand ≤ 99) :
    decodeFields (encode i) = (opcodeOf i, i.operand) ∧ decodeFields (-encode i) = (opcodeOf i, i.operand) := by
  obtain ⟨h1, h2⟩ := fields_of_sum (opcodeOf i) i.operand h
  simp only [decodeFields, encode, Int.natAbs_neg, Int.natAbs_natCast, h1, h2, and_self]

theorem EncodedFields.read (aa : Nat) : EncodedFields.Statement (.read aa) := fun h =>
  encodedFields_of_operand_le (.read aa) (of_decide_eq_true h)

theorem EncodedFields.write (aa : Nat) : EncodedFields.Statement (.write aa) := fun h =>
  encodedFields_of_operand_le (.write aa) (of_decide_eq_true h)

theorem EncodedFields.load (aa : Nat) : EncodedFields.Statement (.load aa) := fun h =>
  encodedFields_of_operand_le (.load aa) (of_decide_eq_true h)

theorem EncodedFields.store (aa : Nat) : EncodedFields.Statement (.store aa) := fun h =>
  encodedFields_of_operand_le (.store aa) (of_decide_eq_true h)

theorem EncodedFields.add (aa : Nat) : EncodedFields.Statement (.add aa) := fun h =>
  encodedFields_of_operand_le (.add aa) (of_decide_eq_true h)

theorem EncodedFields.subtract (aa : Nat) : EncodedFields.Statement (.subtract aa) := fun h =>
  encodedFields_of_operand_le (.subtract aa) (of_decide_eq_true h)

theorem EncodedFields.divide (aa : Nat) : EncodedFields.Statement (.divide aa) := fun h =>
  encodedFields_of_operand_le (.divide aa) (of_decide_eq_true h)

theorem EncodedFields.multiply (aa : Nat) : EncodedFields.Statement (.multiply aa) := fun h =>
  encodedFields_of_operand_le (.multiply aa) (of_decide_eq_true h)

theorem EncodedFields.branch (aa : Nat) : EncodedFields.Statement (.branch aa) := fun h =>
  encodedFields_of_operand_le (.branch aa) (of_decide_eq_true h)

theorem EncodedFields.branchneg (aa : Nat) : EncodedFields.Statement (.branchneg aa) := fun h =>
  encodedFields_of_operand_le (.branchneg aa) (of_decide_eq_true h)

theorem EncodedFields.branchzero (aa : Nat) : EncodedFields.Statement (.branchzero aa) := fun h =>
  encodedFields_of_operand_le (.branchzero aa) (of_decide_eq_true h)

theorem EncodedFields.halt (aa : Nat) : EncodedFields.Statement (.halt aa) := fun h =>
  encodedFields_of_operand_le (.halt aa) (of_decide_eq_true h)

end Sys2Proof.Laws
end

