-- ==== Sys2Proof/Laws/Decode.lean ====
section
/-! SUPPORT. What the decoder's opcode map and field split can answer (30_encoding.md R51 to R54). -/

namespace Sys2Proof

/-- The opcode map answers only the instruction of its row: nothing falls through to a neighbour. -/
theorem instrOfFields_ok {op aa : Nat} {i : Instr} (h : instrOfFields op aa = .ok i) :
    opcodeOf i = op ∧ i.operand = aa := by
  unfold instrOfFields at h
  split at h <;> cases h <;> exact ⟨rfl, rfl⟩

/-- Every instruction's own fields select it. -/
theorem instrOfFields_opcodeOf (i : Instr) : instrOfFields (opcodeOf i) i.operand = .ok i := by
  cases i <;> rfl

/-- A decoded instruction's fields are those of the magnitude (R51). -/
theorem decode_ok_fields {w : Int} {i : Instr} (h : decode w = .ok i) :
    opcodeOf i = w.natAbs / 100 ∧ i.operand = w.natAbs % 100 :=
  instrOfFields_ok h

/-- The decoder delivers two-digit operands only (R52). -/
theorem decode_operand_le {w : Int} {i : Instr} (h : decode w = .ok i) : i.operand ≤ 99 := by
  have := (decode_ok_fields h).2
  omega

end Sys2Proof
end

