-- ==== Sys2Proof/Laws/State.lean ====
section
/-! SUPPORT. One lemma per field per update of the state, so that no proof unfolds a record update. -/

namespace Sys2Proof.Machine

variable (s : State)

@[simp] theorem advance_mem : (advance s).mem = s.mem := rfl
@[simp] theorem advance_acc : (advance s).acc = s.acc := rfl
@[simp] theorem advance_pc : (advance s).pc = s.pc + 1 := rfl
@[simp] theorem advance_status : (advance s).status = s.status := rfl
@[simp] theorem advance_input : (advance s).input = s.input := rfl
@[simp] theorem advance_output : (advance s).output = s.output := rfl
@[simp] theorem advance_haltCount : (advance s).haltCount = s.haltCount := rfl

@[simp] theorem setPc_mem (a : Nat) : (setPc a s).mem = s.mem := rfl
@[simp] theorem setPc_acc (a : Nat) : (setPc a s).acc = s.acc := rfl
@[simp] theorem setPc_pc (a : Nat) : (setPc a s).pc = a := rfl
@[simp] theorem setPc_status (a : Nat) : (setPc a s).status = s.status := rfl
@[simp] theorem setPc_input (a : Nat) : (setPc a s).input = s.input := rfl
@[simp] theorem setPc_output (a : Nat) : (setPc a s).output = s.output := rfl
@[simp] theorem setPc_haltCount (a : Nat) : (setPc a s).haltCount = s.haltCount := rfl

@[simp] theorem setAcc_mem (v : Word) : (setAcc v s).mem = s.mem := rfl
@[simp] theorem setAcc_acc (v : Word) : (setAcc v s).acc = v := rfl
@[simp] theorem setAcc_pc (v : Word) : (setAcc v s).pc = s.pc := rfl
@[simp] theorem setAcc_status (v : Word) : (setAcc v s).status = s.status := rfl
@[simp] theorem setAcc_input (v : Word) : (setAcc v s).input = s.input := rfl
@[simp] theorem setAcc_output (v : Word) : (setAcc v s).output = s.output := rfl
@[simp] theorem setAcc_haltCount (v : Word) : (setAcc v s).haltCount = s.haltCount := rfl

@[simp] theorem setMem_mem (m : Memory) : (setMem m s).mem = m := rfl
@[simp] theorem setMem_acc (m : Memory) : (setMem m s).acc = s.acc := rfl
@[simp] theorem setMem_pc (m : Memory) : (setMem m s).pc = s.pc := rfl
@[simp] theorem setMem_status (m : Memory) : (setMem m s).status = s.status := rfl
@[simp] theorem setMem_input (m : Memory) : (setMem m s).input = s.input := rfl
@[simp] theorem setMem_output (m : Memory) : (setMem m s).output = s.output := rfl
@[simp] theorem setMem_haltCount (m : Memory) : (setMem m s).haltCount = s.haltCount := rfl

@[simp] theorem setHalted_mem : (setHalted s).mem = s.mem := rfl
@[simp] theorem setHalted_acc : (setHalted s).acc = s.acc := rfl
@[simp] theorem setHalted_pc : (setHalted s).pc = s.pc := rfl
@[simp] theorem setHalted_status : (setHalted s).status = .halted := rfl
@[simp] theorem setHalted_input : (setHalted s).input = s.input := rfl
@[simp] theorem setHalted_output : (setHalted s).output = s.output := rfl
@[simp] theorem setHalted_haltCount : (setHalted s).haltCount = s.haltCount := rfl

@[simp] theorem terminate_mem (c : Cause) : (terminate c s).mem = s.mem := rfl
@[simp] theorem terminate_acc (c : Cause) : (terminate c s).acc = s.acc := rfl
@[simp] theorem terminate_pc (c : Cause) : (terminate c s).pc = s.pc := rfl
@[simp] theorem terminate_status (c : Cause) : (terminate c s).status = .terminated c := rfl
@[simp] theorem terminate_input (c : Cause) : (terminate c s).input = s.input := rfl
@[simp] theorem terminate_output (c : Cause) : (terminate c s).output = s.output := rfl
@[simp] theorem terminate_haltCount (c : Cause) : (terminate c s).haltCount = s.haltCount := rfl

@[simp] theorem setInput_mem (rest : List Word) : (setInput rest s).mem = s.mem := rfl
@[simp] theorem setInput_acc (rest : List Word) : (setInput rest s).acc = s.acc := rfl
@[simp] theorem setInput_pc (rest : List Word) : (setInput rest s).pc = s.pc := rfl
@[simp] theorem setInput_status (rest : List Word) : (setInput rest s).status = s.status := rfl
@[simp] theorem setInput_input (rest : List Word) : (setInput rest s).input = rest := rfl
@[simp] theorem setInput_output (rest : List Word) : (setInput rest s).output = s.output := rfl
@[simp] theorem setInput_haltCount (rest : List Word) : (setInput rest s).haltCount = s.haltCount := rfl

@[simp] theorem emit_mem (v : Word) : (emit v s).mem = s.mem := rfl
@[simp] theorem emit_acc (v : Word) : (emit v s).acc = s.acc := rfl
@[simp] theorem emit_pc (v : Word) : (emit v s).pc = s.pc := rfl
@[simp] theorem emit_status (v : Word) : (emit v s).status = s.status := rfl
@[simp] theorem emit_input (v : Word) : (emit v s).input = s.input := rfl
@[simp] theorem emit_output (v : Word) : (emit v s).output = s.output ++ [v] := rfl
@[simp] theorem emit_haltCount (v : Word) : (emit v s).haltCount = s.haltCount := rfl

@[simp] theorem notifyHalt_mem : (notifyHalt s).mem = s.mem := rfl
@[simp] theorem notifyHalt_acc : (notifyHalt s).acc = s.acc := rfl
@[simp] theorem notifyHalt_pc : (notifyHalt s).pc = s.pc := rfl
@[simp] theorem notifyHalt_status : (notifyHalt s).status = s.status := rfl
@[simp] theorem notifyHalt_input : (notifyHalt s).input = s.input := rfl
@[simp] theorem notifyHalt_output : (notifyHalt s).output = s.output := rfl
@[simp] theorem notifyHalt_haltCount : (notifyHalt s).haltCount = s.haltCount + 1 := rfl

@[simp] theorem deliverInput_mem (v : Word) : (deliverInput v s).mem = s.mem := rfl
@[simp] theorem deliverInput_acc (v : Word) : (deliverInput v s).acc = s.acc := rfl
@[simp] theorem deliverInput_pc (v : Word) : (deliverInput v s).pc = s.pc := rfl
@[simp] theorem deliverInput_status (v : Word) : (deliverInput v s).status = s.status := rfl
@[simp] theorem deliverInput_input (v : Word) : (deliverInput v s).input = s.input ++ [v] := rfl
@[simp] theorem deliverInput_output (v : Word) : (deliverInput v s).output = s.output := rfl
@[simp] theorem deliverInput_haltCount (v : Word) : (deliverInput v s).haltCount = s.haltCount := rfl

end Sys2Proof.Machine
end

