-- ==== Sys2Proof/Laws/Ops.lean ====
section
/-! SUPPORT. For each shared operation, once, everything it can do. -/

namespace Sys2Proof.Machine

/-! ### The primitives -/

/-- A fault is a next state in which only `status` differs (60_exceptions.md R175). -/
theorem raise_eq (c : Cause) (s : State) : raise c s = .next (terminate c s) := rfl

theorem stay_eq (s : State) : stay s = .next s := rfl

/-- The fetch reads the cell of the cursor, and raises only beyond the last one (40_execution_cycle.md R72). -/
theorem fetch_cases (s : State) :
    (s.pc ≤ 99 ∧ fetch s = .ok (Memory.read s.mem s.pc)) ∨
    (99 < s.pc ∧ fetch s = .error .outOfRange) := by
  rcases Nat.lt_or_ge 99 s.pc with h | h
  · exact .inr ⟨h, memRead_of_gt _ h⟩
  · exact .inl ⟨h, memRead_of_le _ h⟩

/-! ### The operand forms -/

/-- A data read goes on with the cell, and raises only for an operand no decoder delivers. -/
theorem withDataOperand_cases (aa : Nat) (s : State) (use : Word → Result) :
    (aa ≤ 99 ∧ withDataOperand aa s use = use (Memory.read s.mem aa)) ∨
    (99 < aa ∧ withDataOperand aa s use = .next (terminate .outOfRange s)) := by
  rcases Nat.lt_or_ge 99 aa with h | h
  · exact .inr ⟨h, by simp [withDataOperand, memRead_of_gt _ h, raise]⟩
  · exact .inl ⟨h, by simp [withDataOperand, memRead_of_le _ h]⟩

@[simp] theorem withDataOperand_of_le {aa : Nat} (h : aa ≤ 99) (s : State) (use : Word → Result) :
    withDataOperand aa s use = use (Memory.read s.mem aa) := by
  simp [withDataOperand, memRead_of_le _ h]

/-- A data write goes on with the written store, and raises only for an operand no decoder delivers. -/
theorem withDataStored_cases (aa : Nat) (v : Word) (s : State) (use : Memory → Result) :
    (aa ≤ 99 ∧ withDataStored aa v s use = use (Memory.write s.mem aa v)) ∨
    (99 < aa ∧ withDataStored aa v s use = .next (terminate .outOfRange s)) := by
  rcases Nat.lt_or_ge 99 aa with h | h
  · exact .inr ⟨h, by simp [withDataStored, memWrite_of_gt _ _ h, raise]⟩
  · exact .inl ⟨h, by simp [withDataStored, memWrite_of_le _ _ h]⟩

@[simp] theorem withDataStored_of_le {aa : Nat} (h : aa ≤ 99) (v : Word) (s : State) (use : Memory → Result) :
    withDataStored aa v s use = use (Memory.write s.mem aa v) := by
  simp [withDataStored, memWrite_of_le _ _ h]

/-- The Control Unit assigns a valid operand and raises on any other (44_control.md R130), for an operand of an
instruction. -/
theorem branchTo_cases (aa : Nat) (s : State) :
    (aa ≤ 99 ∧ branchTo (aa : Int) s = .next (setPc aa s)) ∨
    (99 < aa ∧ branchTo (aa : Int) s = .next (terminate .outOfRange s)) := by
  rcases Nat.lt_or_ge 99 aa with h | h
  · refine .inr ⟨h, ?_⟩
    unfold branchTo
    rw [if_neg (by simp only [Config.addrMax]; omega)]
    rfl
  · refine .inl ⟨h, ?_⟩
    unfold branchTo
    rw [if_pos (by simp only [Config.addrMax]; omega)]
    simp

@[simp] theorem branchTo_of_le {aa : Nat} (h : aa ≤ 99) (s : State) :
    branchTo (aa : Int) s = .next (setPc aa s) := by
  rcases branchTo_cases aa s with ⟨-, e⟩ | ⟨h', -⟩
  · exact e
  · omega

/-! ### The conditions and the arithmetic -/

@[simp] theorem accNegative_iff (s : State) : accNegative s = true ↔ s.acc.val < 0 := by
  simp [accNegative]

@[simp] theorem accZero_iff (s : State) : accZero s = true ↔ s.acc.val = 0 := by
  simp [accZero]

@[simp] theorem truncWord_val (v : Int) : (truncWord v).val = trunc4 v := rfl

/-- The common end of the arithmetic instructions writes the accumulator and the cursor. -/
theorem finishArithmetic_eq (v : Int) (s : State) :
    finishArithmetic v s = .next (advance (setAcc (truncWord v) s)) := rfl

end Sys2Proof.Machine
end

