-- ==== Sys2Proof/Laws/Step.lean ====
section
/-! SUPPORT. Everything one step can do (40_execution_cycle.md R70 to R78), said once. -/

namespace Sys2Proof.Machine

/-- A stopped core takes no step (R78). -/
theorem step_of_stopped {s : State} (h : s.status ≠ .running) : step s = .next s := by
  unfold step cycleByStatus
  cases hs : s.status with
  | running => exact absurd hs h
  | halted => rfl
  | terminated c => rfl

/-- A running core passes once through the loop body (R71). -/
theorem step_of_running {s : State} (h : s.status = .running) : step s = cycle s := by
  simp only [step, cycleByStatus, h]

/-- The inversion of a step: the core is stopped, or the fetch raises, or the opcode is unrecognized, or the decoded
instruction runs, its operand two digits. -/
theorem step_cases (s : State) :
    (s.status ≠ .running ∧ step s = .next s) ∨
    (s.status = .running ∧ 99 < s.pc ∧ step s = .next (terminate .outOfRange s)) ∨
    (s.status = .running ∧ s.pc ≤ 99 ∧ (∀ i, decode (Memory.read s.mem s.pc).val ≠ .ok i) ∧
      step s = .next (terminate .unrecognizedOpcode s)) ∨
    (s.status = .running ∧ s.pc ≤ 99 ∧
      ∃ i, decode (Memory.read s.mem s.pc).val = .ok i ∧ i.operand ≤ 99 ∧ step s = exec i s) := by
  by_cases hr : s.status = .running
  · rcases fetch_cases s with ⟨hpc, hf⟩ | ⟨hpc, hf⟩
    · cases hd : decode (Memory.read s.mem s.pc).val with
      | error e =>
        cases e with
        | unrecognizedOpcode op =>
          refine .inr (.inr (.inl ⟨hr, hpc, (fun i hi => by cases hi), ?_⟩))
          simp only [step_of_running hr, cycle, hf, hd, raise]
      | ok i =>
        refine .inr (.inr (.inr ⟨hr, hpc, i, rfl, decode_operand_le hd, ?_⟩))
        simp only [step_of_running hr, cycle, hf, hd]
    · refine .inr (.inl ⟨hr, hpc, ?_⟩)
      simp only [step_of_running hr, cycle, hf, raise]
  · exact .inl ⟨hr, step_of_stopped hr⟩

/-- The effect of a well-formed instruction: each can end only in the states named here, in terms of the named updates.
For the arithmetic instructions the value written is left to their meanings. -/
theorem exec_effect {i : Instr} {s t : State} (hop : i.operand ≤ 99) (hs : exec i s = .next t) :
    match i with
    | .read aa => (s.input = [] ∧ t = s) ∨
        ∃ v rest, s.input = v :: rest ∧ t = advance (setMem (Memory.write s.mem aa v) (setInput rest s))
    | .write aa => t = advance (emit (Memory.read s.mem aa) s)
    | .load aa => t = advance (setAcc (Memory.read s.mem aa) s)
    | .store aa => t = advance (setMem (Memory.write s.mem aa s.acc) s)
    | .add _ => ∃ v, t = advance (setAcc v s)
    | .subtract _ => ∃ v, t = advance (setAcc v s)
    | .divide aa => ((Memory.read s.mem aa).val = 0 ∧ t = terminate .divideByZero s) ∨
        ((Memory.read s.mem aa).val ≠ 0 ∧ ∃ v, t = advance (setAcc v s))
    | .multiply _ => ∃ v, t = advance (setAcc v s)
    | .branch aa => t = setPc aa s
    | .branchneg aa => (s.acc.val < 0 ∧ t = setPc aa s) ∨ (¬ s.acc.val < 0 ∧ t = advance s)
    | .branchzero aa => (s.acc.val = 0 ∧ t = setPc aa s) ∨ (s.acc.val ≠ 0 ∧ t = advance s)
    | .halt aa => t = notifyHalt (setHalted (setPc aa s)) := by
  cases i <;> simp only [Instr.operand] at hop
  case read aa =>
    cases hi : s.input with
    | nil =>
      simp only [exec, execRead, hi, stay_eq, Host.Outcome.next.injEq] at hs
      exact .inl ⟨rfl, hs.symm⟩
    | cons v rest =>
      simp only [exec, execRead, hi, withDataStored_of_le hop, Host.Outcome.next.injEq] at hs
      exact .inr ⟨v, rest, rfl, hs.symm⟩
  case divide aa =>
    simp only [exec, execDivide, withDataOperand_of_le hop] at hs
    split at hs
    case isTrue h => cases hs; exact .inl ⟨h, rfl⟩
    case isFalse h => cases hs; exact .inr ⟨h, _, rfl⟩
  case branchneg aa =>
    simp only [exec, execBranchneg, accNegative_iff, branchTo_of_le hop] at hs
    split at hs
    case isTrue h => cases hs; exact .inl ⟨h, rfl⟩
    case isFalse h => cases hs; exact .inr ⟨h, rfl⟩
  case branchzero aa =>
    simp only [exec, execBranchzero, accZero_iff, branchTo_of_le hop] at hs
    split at hs
    case isTrue h => cases hs; exact .inl ⟨h, rfl⟩
    case isFalse h => cases hs; exact .inr ⟨h, rfl⟩
  all_goals
    simp only [exec, execWrite, execLoad, execStore, execAdd, execSubtract, execMultiply, execBranch, execHalt,
      finishArithmetic, withDataOperand_of_le hop, withDataStored_of_le hop, branchTo_of_le hop] at hs
    cases hs
    first | rfl | exact ⟨_, rfl⟩

end Sys2Proof.Machine
end

