-- ==== Sys2Proof/Laws/Run.lean ====
section
/-! SUPPORT. Runs of many steps (the host's `Core.run`), taken apart once. -/

namespace Sys2Proof.Machine

/-- A run whose first step is known goes on from there. -/
theorem run_succ_of_step {s u : State} (h : step s = .next u) (k : Nat) :
    Host.Core.run Sys2Proof.core (k + 1) s = Host.Core.run Sys2Proof.core k u := by
  have h' : Sys2Proof.core.step s = .next u := h
  simp only [Host.Core.run, h']

/-- A state that steps to itself is never left. -/
theorem run_of_fixed {s : State} (h : step s = .next s) (k : Nat) :
    Host.Core.run Sys2Proof.core k s = .next s := by
  induction k with
  | zero => rfl
  | succ k ih => rw [run_succ_of_step h]; exact ih

/-- A property that every step keeps holds along every run that goes on. -/
theorem run_keeps {P : State → Prop} (hstep : ∀ s t, P s → step s = .next t → P t) :
    ∀ (k : Nat) (s t : State), P s → Host.Core.run Sys2Proof.core k s = .next t → P t := by
  intro k
  induction k with
  | zero => intro s t hs h; cases h; exact hs
  | succ k ih =>
    intro s t hs h
    cases hu : step s with
    | next u => rw [run_succ_of_step hu] at h; exact ih u t (hstep s u hs hu) h
    | fault r => exact nomatch r
    | refused r =>
      have hu' : Sys2Proof.core.step s = .refused r := hu
      simp only [Host.Core.run, hu'] at h
      cases h

end Sys2Proof.Machine
end

