-- ==== Sys2Proof/Tests/Slice0.lean ====
section
/-! SUPPORT. Tests. Expected values are those of spec/95_test_vectors.md and the tables of spec/30_encoding.md, named at each
group; then one witness for the hypotheses of each statement of Certificates/Slice0/Obligations.lean. -/

namespace Sys2Proof.Tests

open Sys2Proof Sys2Proof.Machine

/-! ### Helpers -/

/-- A small Word (the values below are all within the range). -/
def word (v : Int) : Word := truncWord v

/-- A running core with the given cells, accumulator, cursor and input. -/
def coreWith (cells : Memory) (acc : Int) (pc : Nat) (input : List Word) : State :=
  { State.reset with mem := cells, acc := word acc, pc := pc, input := input }

/-- One field of the next state, if there is one. -/
def after {α : Type} (r : Result) (f : State → α) : Option α :=
  match r with
  | .next s => some (f s)
  | .fault _ => none
  | .refused _ => none

/-! ### Well-formedness: the operand check refuses 100, for every constructor -/

theorem test_wellFormed_refuses_100 :
    ∀ i ∈ [Instr.read 100, .write 100, .load 100, .store 100, .add 100, .subtract 100, .divide 100, .multiply 100,
      .branch 100, .branchneg 100, .branchzero 100, .halt 100], i.wellFormed = false := by decide

theorem test_wellFormed_accepts_99 : (Instr.halt 99).wellFormed = true := by decide

/-! ### Decoding (95_test_vectors.md section 2.1; 30_encoding.md section 7): each constructor's Word written out -/

theorem test_decode_read : decode 1099 = .ok (.read 99) ∧ decode (-1007) = .ok (.read 7) := by decide
theorem test_decode_write : decode 1100 = .ok (.write 0) ∧ decode 1199 = .ok (.write 99) := by decide
theorem test_decode_load : decode 2050 = .ok (.load 50) ∧ decode (-2050) = .ok (.load 50) := by decide
theorem test_decode_store : decode 2199 = .ok (.store 99) := by decide
theorem test_decode_add : decode 3000 = .ok (.add 0) := by decide
theorem test_decode_subtract : decode 3101 = .ok (.subtract 1) := by decide
theorem test_decode_divide : decode 3210 = .ok (.divide 10) := by decide
theorem test_decode_multiply : decode 3310 = .ok (.multiply 10) := by decide
theorem test_decode_branch : decode 4000 = .ok (.branch 0) := by decide
theorem test_decode_branchneg : decode 4150 = .ok (.branchneg 50) := by decide
theorem test_decode_branchzero : decode 4299 = .ok (.branchzero 99) ∧ decode (-4207) = .ok (.branchzero 7) := by decide
theorem test_decode_halt : decode 4300 = .ok (.halt 0) ∧ decode (-4300) = .ok (.halt 0) := by decide

theorem test_decode_rejects_range_ends :
    ∀ w ∈ [(0, 0), (99, 0), (999, 9), (1200, 12), (1999, 19), (2200, 22), (2999, 29), (3400, 34), (3999, 39), (4400, 44),
      (9999, 99)], decode (w.1 : Int) = .error (.unrecognizedOpcode w.2) := by decide

/-! ### One instruction, one step (95_test_vectors.md section 2.3) -/

theorem test_read_over_itself :
    after (step (coreWith [(0, word 1000)] 0 0 [word 4300])) (fun t => (Memory.read t.mem 0, t.pc, t.input)) =
      some (word 4300, 1, []) := by decide

theorem test_read_waits_without_input :
    after (step (coreWith [(0, word 1007)] 0 0 [])) (fun t => (t.pc, t.status)) = some (0, .running) := by decide

theorem test_write_emits_a_negative_cell :
    after (step (coreWith [(5, word 1109), (9, word (-42))] 0 5 [])) (fun t => (t.output, t.pc)) =
      some ([word (-42)], 6) := by decide

theorem test_write_at_99 :
    after (step (coreWith [(50, word (-77)), (99, word 1150)] 0 99 [])) (fun t => (t.output, t.pc)) =
      some ([word (-77)], 100) := by decide

theorem test_load_its_own_word :
    after (step (coreWith [(0, word 2000)] 0 0 [])) (fun t => (t.acc, t.pc)) = some (word 2000, 1) := by decide

theorem test_load_a_negative_cell :
    after (step (coreWith [(2, word 2007), (7, word (-15))] 99 2 [])) (fun t => (t.acc, t.pc)) =
      some (word (-15), 3) := by decide

theorem test_store_keeps_the_accumulator :
    after (step (coreWith [(4, word 2109)] 5555 4 [])) (fun t => (Memory.read t.mem 9, t.acc)) =
      some (word 5555, word 5555) := by decide

theorem test_store_of_zero_clears_the_cell :
    after (step (coreWith [(4, word 2109), (9, word 3)] 0 4 [])) (fun t => t.mem) = some [(4, word 2109)] := by decide

theorem test_add_overflow : after (step (coreWith [(0, word 3008), (8, word 2)] 9999 0 [])) State.acc = some (word 1) := by decide
theorem test_add_negative_overflow :
    after (step (coreWith [(0, word 3008), (8, word (-9999))] (-9999) 0 [])) (fun t => t.acc.val) = some (-9998) := by decide
theorem test_subtract_order :
    after (step (coreWith [(0, word 3109), (9, word 5)] 0 0 [])) (fun t => t.acc.val) = some (-5) := by decide
theorem test_subtract_overflow :
    after (step (coreWith [(0, word 3109), (9, word (-9999))] 9999 0 [])) (fun t => t.acc.val) = some 9998 := by decide
theorem test_divide_floors :
    after (step (coreWith [(0, word 3214), (14, word 2)] (-7) 0 [])) (fun t => t.acc.val) = some (-4) := by decide
theorem test_divide_by_zero :
    after (step (coreWith [(1, word 3204)] 15 1 [])) (fun t => (t.status, t.acc.val, t.pc)) =
      some (.terminated .divideByZero, 15, 1) := by decide
theorem test_multiply_keeps_the_sign :
    after (step (coreWith [(0, word 3311), (11, word 5432)] (-9876) 0 [])) (fun t => t.acc.val) = some (-6432) := by decide
theorem test_multiply_to_zero :
    after (step (coreWith [(0, word 3311), (11, word 100)] (-100) 0 [])) (fun t => t.acc) = some Word.zero := by decide
theorem test_branch : after (step (coreWith [(5, word 4001)] 0 5 [])) State.pc = some 1 := by decide
theorem test_branchneg_taken : after (step (coreWith [(5, word 4107)] (-4) 5 [])) State.pc = some 7 := by decide
theorem test_branchneg_not_taken_on_zero : after (step (coreWith [(5, word 4107)] 0 5 [])) State.pc = some 6 := by decide
theorem test_branchzero_taken : after (step (coreWith [(1, word 4206)] 0 1 [])) State.pc = some 6 := by decide
theorem test_branchzero_not_taken : after (step (coreWith [(1, word 4206)] (-1) 1 [])) State.pc = some 2 := by decide
theorem test_halt :
    after (step (coreWith [(6, word 4399)] 0 6 [])) (fun t => (t.pc, t.status, t.haltCount)) =
      some (99, .halted, 1) := by decide

theorem test_unrecognized_word_zero :
    after (step (coreWith [] 7 2 [])) (fun t => (t.status, t.pc, t.haltCount)) =
      some (.terminated .unrecognizedOpcode, 2, 0) := by decide
theorem test_fetch_at_100 :
    after (step (coreWith [] 0 100 [])) (fun t => (t.status, t.pc)) = some (.terminated .outOfRange, 100) := by decide

theorem test_withFetchWord_from_reset :
    decodeTableWord 16 2000 = some (.load 0) ∧
      after (step (State.reset.withFetchWord 16 2000)) (fun t => (t.acc, t.pc)) = some (word 2000, 1) := by decide

/-- P1's image loads from address 0 (50_host_interface.md R151). -/
theorem test_launch_loads_the_image :
    ∃ s, launch [1007, 1008, 2007, 3008, 2109, 1109, 4300] [] = .ok s ∧ Memory.read s.mem 6 = word 4300 :=
  ⟨_, rfl, rfl⟩

/-- 100 Words load, 101 do not, and an integer that is no Word does not (R151, R153). -/
theorem test_launch_limits :
    (launch (List.replicate 100 1) []).isOk = true ∧ launch (List.replicate 101 1) [] = .error .outOfRange ∧
      launch [10000] [] = .error .notAWord := by decide +kernel

/-! ### Witnesses: states and operands that meet the hypotheses of each statement together -/

theorem witness_UnrecognizedMagnitudesOnlyTerminateTheRun :
    State.reset.status = .running ∧ State.reset.pc ≤ 99 ∧
      ∀ i, decode (Memory.read State.reset.mem State.reset.pc).val ≠ .ok i :=
  ⟨rfl, by decide, fun i h => by cases h⟩

theorem witness_StepRunsTheDecodedInstruction :
    (coreWith [(99, word 4399)] 0 99 []).status = .running ∧ (coreWith [(99, word 4399)] 0 99 []).pc ≤ 99 ∧
      decode (Memory.read (coreWith [(99, word 4399)] 0 99 []).mem 99).val = .ok (.halt 99) := by decide

theorem witness_FetchBeyondTheLastCellRaisesOutOfRange :
    (coreWith [] 0 100 []).status = .running ∧ 99 < (coreWith [] 0 100 []).pc := by decide

theorem witness_StoppedCoreNeverChanges :
    { State.reset with status := .halted }.status ≠ .running ∧
      { State.reset with status := .terminated .divideByZero }.status ≠ .running := by decide

theorem witness_CursorAfterAStep_fault :
    ∃ s t, s.status = .running ∧ ¬ s.heldAtRead ∧ step s = .next t ∧ ∃ c, t.status = .terminated c :=
  ⟨coreWith [] 0 100 [], _, rfl, fun h => absurd h.2.1 (by decide), rfl, .outOfRange, rfl⟩

theorem witness_CursorAfterAStep_completed :
    ∃ s t, s.status = .running ∧ ¬ s.heldAtRead ∧ step s = .next t ∧ ∀ c, t.status ≠ .terminated c :=
  ⟨coreWith [(99, word 1000)] 0 99 [word 5], _, rfl, fun h => absurd h.2.2.1 (by decide), rfl, fun c h => by cases h⟩

theorem witness_EachEndOfARunHasExactlyItsCause :
    (coreWith [] 0 0 []).status = .running ∧ (coreWith [] 0 100 []).status = .running ∧
      (coreWith [(0, word 3200)] 0 0 []).status = .running ∧ (coreWith [(99, word 4300)] 0 99 []).status = .running := by decide

theorem witness_FaultChangesOnlyStatus :
    ∃ s t, s.status = .running ∧ exec (.divide 9) s = .next t ∧ t.status = .terminated .divideByZero :=
  ⟨coreWith [(0, word 3209)] 5 0 [], _, rfl, rfl, rfl⟩

theorem witness_FaultChangesOnlyStatus_step :
    ∃ s t, s.status = .running ∧ step s = .next t ∧ t.status = .terminated .outOfRange :=
  ⟨coreWith [] 5 100 [], _, rfl, rfl, rfl⟩

theorem witness_BranchToItselfNeverEnds :
    (coreWith [(99, word 4099)] 0 99 []).status = .running ∧
      decode (Memory.read (coreWith [(99, word 4099)] 0 99 []).mem 99).val = .ok (.branch 99) := by decide

theorem witness_MemBounds :
    ((-1 : Int) < 0 ∨ (99 : Int) < -1) ∧ ((100 : Int) < 0 ∨ (99 : Int) < 100) ∧
      ((0 : Int) ≤ 0 ∧ (0 : Int) ≤ 99) ∧ ((0 : Int) ≤ 99 ∧ (99 : Int) ≤ 99) := by decide

theorem witness_CanonicalStoresThatReadAlikeAreEqual :
    Memory.wf [(0, word 1), (99, word (-9999))] ∧
      ∀ a : Nat, a ≤ 99 → Memory.read [(0, word 1), (99, word (-9999))] a =
        Memory.read [(0, word 1), (99, word (-9999))] a :=
  ⟨by decide, fun _ _ => rfl⟩

theorem witness_StoredInstructionRunsAtTheNextStep :
    let s := coreWith [(98, word 2199)] 4300 98 []
    let r := coreWith [(98, word 1099)] 0 98 [word (-4305)]
    (s.status = .running ∧ s.pc ≤ 98 ∧ decode (Memory.read s.mem s.pc).val = .ok (.store (s.pc + 1)) ∧
      decode s.acc.val = .ok (.halt 0)) ∧
    (r.status = .running ∧ r.pc ≤ 98 ∧ decode (Memory.read r.mem r.pc).val = .ok (.read (r.pc + 1)) ∧
      r.input = [word (-4305)] ∧ decode (word (-4305)).val = .ok (.halt 5)) := by decide

theorem witness_OnlyReadAndStoreChangeACell :
    ∃ s t, step s = .next t ∧ Memory.read t.mem 99 ≠ Memory.read s.mem 99 :=
  ⟨coreWith [(0, word 2199)] 7 0 [], _, rfl, by decide⟩

theorem witness_OnlyLoadAndArithmeticChangeTheAccumulator : ∃ s t, step s = .next t ∧ t.acc ≠ s.acc :=
  ⟨coreWith [(0, word 2000)] 7 0 [], _, rfl, by decide⟩

/-- for READ and for the clause on the step after address 99 -/
theorem witness_ReadStoresTheNextInputWord :
    let s := coreWith [] 0 99 [word (-9999)]
    99 ≤ 99 ∧ s.input = word (-9999) :: [] ∧ s.status = .running ∧ s.pc = 99 := by decide

theorem witness_ReadIsHeldUntilAWordIsDelivered :
    let s := coreWith [(99, word 1099)] 0 99 []
    s.status = .running ∧ s.pc ≤ 99 ∧ s.input = [] ∧ decode (Memory.read s.mem s.pc).val = .ok (.read 99) := by decide

theorem witness_OutputGrowsExactlyByWrite :
    ∃ s t, step s = .next t ∧ s.status = .running ∧ s.pc ≤ 99 ∧
      decode (Memory.read s.mem s.pc).val = .ok (.write 99) :=
  ⟨coreWith [(0, word 1199)] 0 0 [], _, rfl, rfl, by decide, rfl⟩

theorem witness_OutputGrowsExactlyByWrite_otherwise :
    ∃ s t, step s = .next t ∧
      ¬ (s.status = .running ∧ s.pc ≤ 99 ∧ ∃ aa, decode (Memory.read s.mem s.pc).val = .ok (.write aa)) :=
  ⟨coreWith [] 0 100 [], _, rfl, fun h => absurd h.2.1 (by decide)⟩

theorem witness_OutputIsNeverWithdrawn :
    ∃ t, Host.Core.run Sys2Proof.core 1 (coreWith [(0, word 1199)] 0 0 []) = .next t ∧ t.output = [Word.zero] :=
  ⟨_, rfl, by decide⟩

theorem witness_InputIsConsumedExactlyByRead :
    ∃ s t, step s = .next t ∧ s.status = .running ∧ s.pc ≤ 99 ∧
      decode (Memory.read s.mem s.pc).val = .ok (.read 99) ∧ s.input = word 1 :: [word 2] :=
  ⟨coreWith [(0, word 1099)] 0 0 [word 1, word 2], _, rfl, rfl, by decide, rfl, rfl⟩

theorem witness_InputIsConsumedExactlyByRead_otherwise :
    ∃ s t, step s = .next t ∧
      ¬ (s.status = .running ∧ s.pc ≤ 99 ∧ ∃ aa, decode (Memory.read s.mem s.pc).val = .ok (.read aa)) :=
  ⟨coreWith [] 0 100 [word 1], _, rfl, fun h => absurd h.2.1 (by decide)⟩

theorem witness_UnconsumedInputIsNeverSeen :
    ∃ t, Host.Core.run Sys2Proof.core 1 (coreWith [(0, word 1099)] 0 0 [word 1]) = .next t ∧ ¬ t.heldAtRead := by
  refine ⟨_, rfl, fun h => ?_⟩
  obtain ⟨-, -, -, aa, hd⟩ := h
  cases hd

/-- for every statement on an operand 0 to 99, and its clause on the step after address 99: both ends of the operand -/
theorem witness_OperandRange_and_RunOffTheEnd :
    (0 ≤ 99 ∧ 99 ≤ 99) ∧ (coreWith [] 5 99 []).status = .running ∧ (coreWith [] 5 99 []).pc = 99 := by decide

theorem witness_FloorDivIsTheGreatestIntegerBelowTheQuotient : (-9999 : Int) ≠ 0 ∧ (1 : Int) ≠ 0 := by decide

/-- the three pieces of ADD at their boundary values -/
theorem witness_AddTruncatesTheExactSum :
    |(coreWith [] 9999 0 []).acc.val + (Memory.read [] 99).val| ≤ 9999 ∧
      10000 ≤ (coreWith [(99, word 1)] 9999 0 []).acc.val + (Memory.read [(99, word 1)] 99).val ∧
      (coreWith [(99, word (-1))] (-9999) 0 []).acc.val + (Memory.read [(99, word (-1))] 99).val ≤ -10000 := by decide

/-- the three pieces of SUBTRACT at their boundary values -/
theorem witness_SubtractTruncatesTheExactDifference :
    |(coreWith [] (-9999) 0 []).acc.val - (Memory.read [] 99).val| ≤ 9999 ∧
      10000 ≤ (coreWith [(99, word (-1))] 9999 0 []).acc.val - (Memory.read [(99, word (-1))] 99).val ∧
      (coreWith [(99, word 1)] (-9999) 0 []).acc.val - (Memory.read [(99, word 1)] 99).val ≤ -10000 := by decide

theorem witness_DivideFloorsOrRaisesDivideByZero :
    (Memory.read [(99, word (-1))] 99).val ≠ 0 ∧ (Memory.read [(99, word (-1))] 0).val = 0 := by decide

theorem witness_BranchnegIsTakenExactlyIfNegative :
    (coreWith [] (-1) 0 []).acc.val < 0 ∧ 0 ≤ (coreWith [] 0 99 []).acc.val := by decide

theorem witness_BranchzeroIsTakenExactlyIfZero :
    (coreWith [] 0 0 []).acc.val = 0 ∧ (coreWith [] (-1) 99 []).acc.val ≠ 0 := by decide

theorem witness_HaltNotificationIsSentExactlyByHalt :
    (∃ s t, step s = .next t ∧ s.status = .running ∧ t.status = .halted) ∧
      ∃ s t, step s = .next t ∧ ¬ (s.status = .running ∧ t.status = .halted) :=
  ⟨⟨coreWith [(0, word 4300)] 0 0 [], _, rfl, rfl, rfl⟩, ⟨coreWith [] 0 0 [], _, rfl, fun h => by cases h.2⟩⟩

theorem witness_OperandsAbove99MeetTheDeadChecks :
    99 < 100 ∧ (coreWith [] (-1) 0 [word 1]).input ≠ [] ∧ (coreWith [] (-1) 0 [word 1]).acc.val < 0 ∧
      (coreWith [] 0 0 []).acc.val = 0 ∧ (coreWith [] 1 0 []).acc.val ≠ 0 := by decide

theorem witness_LaunchStateIsAFunctionOfTheImage :
    (List.replicate 100 (-9999 : Int)).length ≤ 100 ∧
      ∀ v ∈ List.replicate 100 (-9999 : Int), -9999 ≤ v ∧ v ≤ 9999 := by decide

theorem witness_RelaunchKeepsTheTailAndFreesTheAccumulator :
    State.reset.status = .running ∧ { State.reset with status := .halted }.status ≠ .running ∧
      [(9999 : Int)].length ≤ 100 ∧ ∀ v ∈ [(9999 : Int)], -9999 ≤ v ∧ v ≤ 9999 := by decide

theorem witness_WithFetchWordRunsThePlacedWord : decodeTableWord 16 4399 = some (.halt 99) := by decide

theorem witness_EveryStepKeepsTheInvariant : ∃ s t, State.Inv s ∧ step s = .next t :=
  ⟨coreWith [(0, word 3299)] 5 0 [], _, ⟨by decide, by decide, rfl⟩, rfl⟩

theorem witness_EveryStateReachedFromALaunchMeetsTheInvariant :
    ∃ s t, launch [4300] [] = .ok s ∧ Host.Core.run Sys2Proof.core 1 s = .next t :=
  ⟨_, _, rfl, rfl⟩

theorem witness_ARunEndsByHaltOrByAReportedFault :
    (∃ s t, launch [4300] [] = .ok s ∧ Host.Core.run Sys2Proof.core 1 s = .next t ∧ t.runOver) ∧
      ∃ s t, launch [] [] = .ok s ∧ Host.Core.run Sys2Proof.core 1 s = .next t ∧ t.runOver :=
  ⟨⟨_, _, rfl, rfl, fun h => by cases h⟩, ⟨_, _, rfl, rfl, fun h => by cases h⟩⟩

end Sys2Proof.Tests
end

section
/-! PROOFS. The invariant of the machine: one rule per update of the state, then per instruction, then per step; and
which instructions write the accumulator (10_state.md). -/

namespace Sys2Proof.Machine

/-! ### The reset state (10_state.md R22) -/

theorem hostReset_eq (s : State) : hostReset s = State.reset := rfl

theorem read_reset_mem (a : Nat) : Memory.read State.reset.mem a = Word.zero := rfl

/-! ### The invariant under each update of the state -/

/-- Of a running core the invariant speaks only of the store, the cursor and the absence of a halt notification. -/
theorem State.inv_iff_of_running {s : State} (hr : s.status = .running) :
    s.Inv ↔ Memory.wf s.mem ∧ s.pc ≤ 100 ∧ s.haltCount = 0 := by
  simp only [State.Inv, State.endExplained, hr]

/-- The accumulator takes no part in the invariant. -/
theorem State.inv_setAcc {s : State} {v : Word} : (setAcc v s).Inv ↔ s.Inv := Iff.rfl

/-- What was emitted takes no part in the invariant. -/
theorem State.inv_emit {s : State} {v : Word} : (emit v s).Inv ↔ s.Inv := Iff.rfl

/-- What is left to read takes no part in the invariant. -/
theorem State.inv_setInput {s : State} {rest : List Word} : (setInput rest s).Inv ↔ s.Inv := Iff.rfl

section RunningCore

variable {s : State} (hinv : s.Inv) (hr : s.status = .running)
include hinv hr

/-- The advance reaches at most 100 (R13), from a cursor on a cell. -/
theorem State.Inv.after_advance (hpc : s.pc ≤ 99) : (advance s).Inv := by
  obtain ⟨hwf, -, hcount⟩ := (inv_iff_of_running hr).1 hinv
  exact (inv_iff_of_running (s := advance s) hr).2 ⟨hwf, Nat.succ_le_succ hpc, hcount⟩

theorem State.Inv.after_setPc {a : Nat} (ha : a ≤ 99) : (setPc a s).Inv := by
  obtain ⟨hwf, -, hcount⟩ := (inv_iff_of_running hr).1 hinv
  exact (inv_iff_of_running (s := setPc a s) hr).2 ⟨hwf, Nat.le_succ_of_le ha, hcount⟩

/-- A store to a cell keeps the canonical form, and a running core promises nothing of the contents. -/
theorem State.Inv.after_write {a : Nat} (ha : a ≤ 99) (v : Word) :
    (setMem (Memory.write s.mem a v) s).Inv := by
  obtain ⟨hwf, hpc, hcount⟩ := (inv_iff_of_running hr).1 hinv
  exact (inv_iff_of_running (s := setMem (Memory.write s.mem a v) s) hr).2
    ⟨Memory.write_wf hwf ha v, hpc, hcount⟩

/-- HALT sends the one notification of the run and leaves the cursor on its operand (R134, R156). -/
theorem State.Inv.after_halt {a : Nat} (ha : a ≤ 99) : (notifyHalt (setHalted (setPc a s))).Inv := by
  obtain ⟨hwf, -, hcount⟩ := (inv_iff_of_running hr).1 hinv
  exact ⟨hwf, Nat.le_succ_of_le ha, congrArg (· + 1) hcount, ha⟩

/-- A fetch beyond the last cell finds the cursor at 100 exactly (R171). -/
theorem State.Inv.after_outOfRange (hpc : 99 < s.pc) : (terminate .outOfRange s).Inv := by
  obtain ⟨hwf, hle, hcount⟩ := (inv_iff_of_running hr).1 hinv
  exact ⟨hwf, hle, hcount, Nat.le_antisymm hle hpc⟩

/-- The cursor stays on the Word that is no instruction (R174). -/
theorem State.Inv.after_unrecognizedOpcode (hpc : s.pc ≤ 99)
    (hd : ∀ i, decode (Memory.read s.mem s.pc).val ≠ .ok i) : (terminate .unrecognizedOpcode s).Inv := by
  obtain ⟨hwf, hle, hcount⟩ := (inv_iff_of_running hr).1 hinv
  exact ⟨hwf, hle, hcount, hpc, hd⟩

/-- The cursor stays on the DIVIDE, and its cell still holds the 0 (R172). -/
theorem State.Inv.after_divideByZero {aa : Nat} (hpc : s.pc ≤ 99)
    (hd : decode (Memory.read s.mem s.pc).val = .ok (.divide aa))
    (hzero : (Memory.read s.mem aa).val = 0) : (terminate .divideByZero s).Inv := by
  obtain ⟨hwf, hle, hcount⟩ := (inv_iff_of_running hr).1 hinv
  exact ⟨hwf, hle, hcount, hpc, aa, hd, hzero⟩

/-- LOAD and the arithmetic instructions that complete: a Word to the accumulator, then the advance. -/
theorem State.Inv.after_advance_setAcc (hpc : s.pc ≤ 99) (v : Word) :
    (advance (setAcc v s)).Inv :=
  State.Inv.after_advance (inv_setAcc.2 hinv) hr hpc

/-! ### The invariant under an instruction and a step -/

/-- The instruction at the cursor keeps the invariant. -/
theorem exec_keeps_inv {i : Instr} {t : State} (hpc : s.pc ≤ 99)
    (hd : decode (Memory.read s.mem s.pc).val = .ok i) (hs : exec i s = .next t) : t.Inv := by
  have hop : i.operand ≤ 99 := decode_operand_le hd
  have heffect := exec_effect hop hs
  cases i with
  | read aa =>
    obtain ⟨-, rfl⟩ | ⟨v, rest, -, rfl⟩ := heffect
    · exact hinv
    · have hrest : (setInput rest s).Inv := State.inv_setInput.2 hinv
      exact (hrest.after_write hr hop v).after_advance hr hpc
  | write aa =>
    dsimp only at heffect
    subst heffect
    exact State.Inv.after_advance (State.inv_emit.2 hinv) hr hpc
  | load aa =>
    dsimp only at heffect
    subst heffect
    exact hinv.after_advance_setAcc hr hpc _
  | store aa =>
    dsimp only at heffect
    subst heffect
    exact (hinv.after_write hr hop s.acc).after_advance hr hpc
  | add aa | subtract aa | multiply aa =>
    obtain ⟨v, rfl⟩ := heffect
    exact hinv.after_advance_setAcc hr hpc v
  | divide aa =>
    obtain ⟨hzero, rfl⟩ | ⟨-, v, rfl⟩ := heffect
    · exact hinv.after_divideByZero hr hpc hd hzero
    · exact hinv.after_advance_setAcc hr hpc v
  | branch aa =>
    dsimp only at heffect
    subst heffect
    exact hinv.after_setPc hr hop
  | branchneg aa | branchzero aa =>
    obtain ⟨-, rfl⟩ | ⟨-, rfl⟩ := heffect
    · exact hinv.after_setPc hr hop
    · exact hinv.after_advance hr hpc
  | halt aa =>
    dsimp only at heffect
    subst heffect
    exact hinv.after_halt hr hop

end RunningCore

/-- Every step keeps the invariant; `run_keeps` lifts it to runs. -/
theorem step_keeps_inv {s t : State} (hinv : s.Inv) (hs : step s = .next t) : t.Inv := by
  rcases step_cases s with ⟨-, hstep⟩ | ⟨hr, hpc, hstep⟩ | ⟨hr, hpc, hd, hstep⟩ | ⟨hr, hpc, i, hd, -, hstep⟩ <;>
    rw [hstep] at hs
  case inl => cases hs; exact hinv
  case inr.inl => cases hs; exact hinv.after_outOfRange hr hpc
  case inr.inr.inl => cases hs; exact hinv.after_unrecognizedOpcode hr hpc hd
  case inr.inr.inr => exact exec_keeps_inv hinv hr hpc hd hs

theorem reset_inv : State.reset.Inv :=
  (State.inv_iff_of_running rfl).2 ⟨Memory.reset_wf, Nat.zero_le _, rfl⟩

/-! ### Who writes the accumulator (10_state.md R12) -/

/-- An instruction that changes the accumulator is LOAD or one of the four arithmetic instructions. -/
theorem exec_changes_acc {i : Instr} {s t : State} (hop : i.operand ≤ 99) (hs : exec i s = .next t)
    (hacc : t.acc ≠ s.acc) :
    i = .load i.operand ∨ i = .add i.operand ∨ i = .subtract i.operand ∨ i = .divide i.operand ∨
      i = .multiply i.operand := by
  have heffect := exec_effect hop hs
  cases i with
  | load aa | add aa | subtract aa | divide aa | multiply aa => simp [Instr.operand]
  | read aa =>
    obtain ⟨-, rfl⟩ | ⟨v, rest, -, rfl⟩ := heffect
    · exact absurd rfl hacc
    · exact absurd rfl hacc
  | branchneg aa | branchzero aa =>
    obtain ⟨-, rfl⟩ | ⟨-, rfl⟩ := heffect
    · exact absurd rfl hacc
    · exact absurd rfl hacc
  | write aa | store aa | branch aa | halt aa =>
    dsimp only at heffect
    subst heffect
    exact absurd rfl hacc

/-- A step that changes the accumulator ran a decoded instruction: a stopped core and the faults of the cycle leave it. -/
theorem step_changes_acc {s t : State} (hs : step s = .next t) (hacc : t.acc ≠ s.acc) :
    s.status = .running ∧ s.pc ≤ 99 ∧
      ∃ i, decode (Memory.read s.mem s.pc).val = .ok i ∧ i.operand ≤ 99 ∧ exec i s = .next t := by
  rcases step_cases s with ⟨-, hstep⟩ | ⟨-, -, hstep⟩ | ⟨-, -, -, hstep⟩ | ⟨hr, hpc, i, hd, hop, hstep⟩ <;>
    rw [hstep] at hs
  case inr.inr.inr => exact ⟨hr, hpc, i, hd, hop, hs⟩
  all_goals cases hs; exact absurd rfl hacc

/-! ### The obligations -/

/-- Settles O47, by the case split of `step_cases` and one rule per update of the state. -/
theorem everyStepKeepsTheInvariant : Obligations.EveryStepKeepsTheInvariant :=
  fun _ _ hinv hs => step_keeps_inv hinv hs

/-- Settles O18: the step ran an instruction, and only these five write the accumulator. -/
theorem onlyLoadAndArithmeticChangeTheAccumulator :
    Obligations.OnlyLoadAndArithmeticChangeTheAccumulator := by
  intro s t hs hacc
  obtain ⟨hr, hpc, i, hd, hop, hexec⟩ := step_changes_acc hs hacc
  refine ⟨hr, hpc, i.operand, hop, ?_⟩
  simpa only [hd, Except.ok.injEq] using exec_changes_acc hop hexec hacc

/-- Settles O41: each value is the one `State.reset` is defined with, and an unlisted cell reads 0. -/
theorem resetStateHoldsTheSpecsValues : Obligations.ResetStateHoldsTheSpecsValues :=
  ⟨hostReset_eq, fun a _ => congrArg Word.val (read_reset_mem a), rfl, rfl, rfl, rfl, rfl⟩

/-- Settles O46: the empty store is canonical and the running core has sent no notification. -/
theorem resetStateMeetsTheInvariant : Obligations.ResetStateMeetsTheInvariant := reset_inv

end Sys2Proof.Machine
end

section
/-! PROOFS. Memory (20_memory.md): the primitives over all integer addresses, what the instructions that write a cell
leave behind, and the checks that no decoded operand meets. -/

namespace Sys2Proof.Machine

/-! ### Addresses without a cell -/

theorem memRead_outOfRange (m : Memory) {a : Int} (h : a < 0 ∨ 99 < a) :
    memRead m a = .error .outOfRange := if_pos h

theorem memWrite_outOfRange (m : Memory) {a : Int} (v : Word) (h : a < 0 ∨ 99 < a) :
    memWrite m a v = .error .outOfRange := if_pos h

section OperandAbove99

variable {aa : Nat} (h : 99 < aa) (s : State)
include h

theorem withDataOperand_of_gt (use : Word → Result) :
    withDataOperand aa s use = .next (terminate .outOfRange s) := by
  rcases withDataOperand_cases aa s use with ⟨hle, -⟩ | ⟨-, e⟩
  · exact absurd hle (Nat.not_le.2 h)
  · exact e

theorem withDataStored_of_gt (v : Word) (use : Memory → Result) :
    withDataStored aa v s use = .next (terminate .outOfRange s) := by
  rcases withDataStored_cases aa v s use with ⟨hle, -⟩ | ⟨-, e⟩
  · exact absurd hle (Nat.not_le.2 h)
  · exact e

theorem branchTo_of_gt : branchTo (aa : Int) s = .next (terminate .outOfRange s) := by
  rcases branchTo_cases aa s with ⟨hle, -⟩ | ⟨-, e⟩
  · exact absurd hle (Nat.not_le.2 h)
  · exact e

end OperandAbove99

/-! ### What the instructions answer -/

section Instructions

variable {s : State} {aa : Nat}

/-- READ with a Word delivered stores it, the rest of the input still waiting (41_io.md R90), for any operand. -/
theorem exec_read_of_input {v : Word} {rest : List Word} (hin : s.input = v :: rest) :
    exec (.read aa) s =
      withDataStored aa v s (fun m => .next (advance (setMem m (setInput rest s)))) := by
  simp only [exec, execRead, hin]

theorem exec_load_of_le (h : aa ≤ 99) :
    exec (.load aa) s = .next (advance (setAcc (Memory.read s.mem aa) s)) :=
  withDataOperand_of_le h s _

theorem exec_store_of_le (h : aa ≤ 99) :
    exec (.store aa) s = .next (advance (setMem (Memory.write s.mem aa s.acc) s)) :=
  withDataStored_of_le h s.acc s _

theorem exec_branchneg_of_neg (h : s.acc.val < 0) : exec (.branchneg aa) s = branchTo (aa : Int) s :=
  if_pos ((accNegative_iff s).2 h)

theorem exec_branchneg_of_nonneg (h : 0 ≤ s.acc.val) : exec (.branchneg aa) s = .next (advance s) :=
  if_neg (mt (accNegative_iff s).1 (not_lt.2 h))

theorem exec_branchzero_of_eq (h : s.acc.val = 0) : exec (.branchzero aa) s = branchTo (aa : Int) s :=
  if_pos ((accZero_iff s).2 h)

theorem exec_branchzero_of_ne (h : s.acc.val ≠ 0) : exec (.branchzero aa) s = .next (advance s) :=
  if_neg (mt (accZero_iff s).1 h)

end Instructions

/-! ### The instruction a step runs -/

/-- A running core on a Word that decodes runs that instruction and nothing else (R71 to R73). -/
theorem step_eq_exec {s : State} {i : Instr} (hr : s.status = .running) (hpc : s.pc ≤ 99)
    (hd : decode (Memory.read s.mem s.pc).val = .ok i) : step s = exec i s := by
  rcases step_cases s with ⟨hstop, -⟩ | ⟨-, hgt, -⟩ | ⟨-, -, hnone, -⟩ | ⟨-, -, j, hj, -, hstep⟩
  · exact absurd hr hstop
  · exact absurd hpc (Nat.not_le.2 hgt)
  · exact absurd hd (hnone i)
  · obtain rfl : j = i := Except.ok.inj (hj.symm.trans hd)
    exact hstep

/-- A step that changes a part of the state other than `status` ran a decoded instruction: a stopped core and the faults
of the cycle change nothing else. -/
theorem step_runs_exec_of_change {α : Type} (f : State → α) (hf : ∀ c s, f (terminate c s) = f s)
    {s t : State} (hs : step s = .next t) (hne : f t ≠ f s) :
    s.status = .running ∧ s.pc ≤ 99 ∧
      ∃ i, decode (Memory.read s.mem s.pc).val = .ok i ∧ i.operand ≤ 99 ∧ exec i s = .next t := by
  rcases step_cases s with ⟨-, hstep⟩ | ⟨-, -, hstep⟩ | ⟨-, -, -, hstep⟩ | ⟨hr, hpc, i, hd, hop, hstep⟩ <;>
    rw [hstep] at hs
  case inl => cases hs; exact absurd rfl hne
  case inr.inl | inr.inr.inl => cases hs; exact absurd (hf _ s) hne
  case inr.inr.inr => exact ⟨hr, hpc, i, hd, hop, hs⟩

/-! ### Who writes a cell (R37) -/

/-- A cell that a write changes is the one written. -/
theorem Memory.eq_of_read_write_ne {m : Memory} {a b : Nat} {v : Word}
    (h : Memory.read (Memory.write m a v) b ≠ Memory.read m b) : a = b := by
  by_contra hab
  exact h (Memory.read_write_of_ne m v (Ne.symm hab))

/-- An instruction that changes a cell is READ or STORE with that cell as its operand. -/
theorem exec_changes_cell {i : Instr} {s t : State} {a : Nat} (hop : i.operand ≤ 99)
    (hs : exec i s = .next t) (hcell : Memory.read t.mem a ≠ Memory.read s.mem a) :
    i = .read a ∨ i = .store a := by
  have heffect := exec_effect hop hs
  cases i with
  | read aa =>
    obtain ⟨-, rfl⟩ | ⟨v, rest, -, rfl⟩ := heffect
    · exact absurd rfl hcell
    · exact .inl (congrArg Instr.read (Memory.eq_of_read_write_ne hcell))
  | store aa =>
    dsimp only at heffect
    subst heffect
    exact .inr (congrArg Instr.store (Memory.eq_of_read_write_ne hcell))
  | add aa | subtract aa | multiply aa =>
    obtain ⟨v, rfl⟩ := heffect
    exact absurd rfl hcell
  | divide aa =>
    obtain ⟨-, rfl⟩ | ⟨-, v, rfl⟩ := heffect
    · exact absurd rfl hcell
    · exact absurd rfl hcell
  | branchneg aa | branchzero aa =>
    obtain ⟨-, rfl⟩ | ⟨-, rfl⟩ := heffect
    · exact absurd rfl hcell
    · exact absurd rfl hcell
  | write aa | load aa | branch aa | halt aa =>
    dsimp only at heffect
    subst heffect
    exact absurd rfl hcell

/-! ### A stored Word is fetched (R41) -/

/-- With a Word stored just ahead of the cursor, the advance brings the cursor onto it and the next step runs it. -/
theorem step_advance_setMem_next {s : State} {v : Word} {i : Instr} (hr : s.status = .running)
    (hpc : s.pc ≤ 98) (hd : decode v.val = .ok i) :
    step (advance (setMem (Memory.write s.mem (s.pc + 1) v) s)) =
      exec i (advance (setMem (Memory.write s.mem (s.pc + 1) v) s)) :=
  step_eq_exec hr (Nat.succ_le_succ hpc) (by simpa using hd)

/-! ### The obligations -/

/-- Settles O15, by the law of a read after a write. -/
theorem storeThenLoadGivesTheStoredWord : Obligations.StoreThenLoadGivesTheStoredWord := by
  intro s aa haa
  refine ⟨_, _, exec_store_of_le haa, exec_load_of_le haa, ?_, ?_, fun a ha => ?_, ?_⟩
  · exact Memory.read_write_same s.mem aa s.acc
  · exact Memory.read_write_same s.mem aa s.acc
  · exact Memory.read_write_of_ne s.mem s.acc ha
  · simp [advance, setMem, setAcc]

/-- Settles O16: STORE and READ alike leave their Word under the advanced cursor. -/
theorem storedInstructionRunsAtTheNextStep : Obligations.StoredInstructionRunsAtTheNextStep := by
  constructor
  · intro s i hr hpc hstore hd
    refine ⟨_, ?_, rfl, step_advance_setMem_next hr hpc hd⟩
    rw [step_eq_exec hr (Nat.le_succ_of_le hpc) hstore]
    exact exec_store_of_le (Nat.succ_le_succ hpc)
  · intro s v rest i hr hpc hread hin hd
    refine ⟨_, ?_, rfl, step_advance_setMem_next (s := setInput rest s) hr hpc hd⟩
    rw [step_eq_exec hr (Nat.le_succ_of_le hpc) hread, exec_read_of_input hin]
    exact withDataStored_of_le (Nat.succ_le_succ hpc) v s _

/-- Settles O17: the step ran an instruction, and only these two write a cell. -/
theorem onlyReadAndStoreChangeACell : Obligations.OnlyReadAndStoreChangeACell := by
  intro s t a hs hcell
  obtain ⟨hr, hpc, i, hd, hop, hexec⟩ :=
    step_runs_exec_of_change (fun u => Memory.read u.mem a) (fun _ _ => rfl) hs hcell
  refine ⟨hr, hpc, ?_⟩
  simpa only [hd, Except.ok.injEq] using exec_changes_cell hop hexec hcell

/-- Settles O12: an integer address in range is a natural one. -/
theorem memReadChecksItsBounds : Obligations.MemReadChecksItsBounds := by
  refine fun m a => ⟨memRead_outOfRange m, fun h0 h99 => ?_⟩
  lift a to ℕ using h0
  exact memRead_of_le m (Int.ofNat_le.1 h99)

/-- Settles O13: in range the answer is the written store, whose reads the laws of the store give. -/
theorem memWriteChecksItsBoundsAndStoresOneWord :
    Obligations.MemWriteChecksItsBoundsAndStoresOneWord := by
  refine fun m a v => ⟨memWrite_outOfRange m v, fun h0 h99 => ?_⟩
  lift a to ℕ using h0
  exact ⟨_, memWrite_of_le m v (Int.ofNat_le.1 h99), Memory.read_write_same m a v,
    fun b hb => Memory.read_write_of_ne m v hb⟩

/-- Settles O40, by which of the three checks each instruction meets: READ and STORE that of the write, the branches
that of the Control Unit, the others that of the read. -/
theorem operandsAbove99MeetTheDeadChecks : Obligations.OperandsAbove99MeetTheDeadChecks := by
  intro s aa haa
  have hdata (use : Word → Result) := withDataOperand_of_gt haa s use
  refine ⟨?_, fun hin => ?_, fun hneg => ?_, exec_branchneg_of_nonneg, fun hzero => ?_,
    exec_branchzero_of_ne, rfl⟩
  · simp only [List.forall_mem_cons, List.not_mem_nil, false_implies, implies_true, and_true]
    exact ⟨hdata _, hdata _, withDataStored_of_gt haa s s.acc _, hdata _, hdata _, hdata _, hdata _,
      branchTo_of_gt haa s⟩
  · obtain ⟨v, rest, hin⟩ := List.exists_cons_of_ne_nil hin
    exact (exec_read_of_input hin).trans (withDataStored_of_gt haa s v _)
  · exact (exec_branchneg_of_neg hneg).trans (branchTo_of_gt haa s)
  · exact (exec_branchzero_of_eq hzero).trans (branchTo_of_gt haa s)

end Sys2Proof.Machine
end

section
/-! PROOFS. Encoding (30_encoding.md): the decoder inverts the encoder up to the sign, and the Words without an
instruction. -/

namespace Sys2Proof

/-! ### The decoder against the encoder (R51 to R57) -/

theorem wellFormed_iff (i : Instr) : i.wellFormed = true ↔ i.operand ≤ 99 := decide_eq_true_iff

/-- The two Words of an instruction are the integers whose magnitude is its digit sum (R56). -/
theorem eq_encode_or_neg_iff (w : Int) (i : Instr) :
    (w = encode i ∨ w = -encode i) ↔ w.natAbs = opcodeOf i * 100 + i.operand :=
  Int.natAbs_eq_iff.symm

/-- The decoder answers the instruction whose two fields the integer has; `decode_ok_fields` is the converse. -/
theorem decode_of_fields {w : Int} {i : Instr} (h : decodeFields w = (opcodeOf i, i.operand)) :
    decode w = .ok i := by
  rw [decode, h, instrOfFields_opcodeOf]

/-! ### The recognized opcodes and their magnitudes (R53, R54) -/

/-- The opcode map answers an instruction for exactly the twelve opcodes of R53, with any operand. -/
theorem exists_instrOfFields_ok_iff (op aa : Nat) :
    (∃ i, instrOfFields op aa = .ok i) ↔ op ∈ [10, 11, 20, 21, 30, 31, 32, 33, 40, 41, 42, 43] := by
  constructor
  · rintro ⟨i, hi⟩
    obtain ⟨rfl, -⟩ := instrOfFields_ok hi
    cases i <;> simp [opcodeOf]
  · intro h
    simp only [List.mem_cons, List.not_mem_nil, or_false] at h
    rcases h with rfl | rfl | rfl | rfl | rfl | rfl | rfl | rfl | rfl | rfl | rfl | rfl <;> exact ⟨_, rfl⟩

/-- The decodable integers are four blocks of magnitudes, one per leading digit 1 to 4. -/
theorem exists_decode_ok_iff (w : Int) :
    (∃ i, decode w = .ok i) ↔
      (1000 ≤ w.natAbs ∧ w.natAbs ≤ 1199) ∨ (2000 ≤ w.natAbs ∧ w.natAbs ≤ 2199) ∨
      (3000 ≤ w.natAbs ∧ w.natAbs ≤ 3399) ∨ (4000 ≤ w.natAbs ∧ w.natAbs ≤ 4399) := by
  have hmap : (∃ i, decode w = .ok i) ↔
      w.natAbs / 100 ∈ [10, 11, 20, 21, 30, 31, 32, 33, 40, 41, 42, 43] :=
    exists_instrOfFields_ok_iff _ _
  simp only [hmap, List.mem_cons, List.not_mem_nil, or_false]
  omega

/-- Settles O1: from left to right the magnitude is the sum of the decoded fields, from right to left the decoder splits
that sum again. -/
theorem decodeAnswersExactlyTheEncodedInstruction :
    Obligations.DecodeAnswersExactlyTheEncodedInstruction := by
  intro w i
  constructor
  · intro h
    refine ⟨(wellFormed_iff i).2 (decode_operand_le h), (eq_encode_or_neg_iff w i).2 ?_⟩
    obtain ⟨hop, haa⟩ := decode_ok_fields h
    rw [hop, haa, Nat.div_add_mod']
  · rintro ⟨hwf, hw⟩
    obtain ⟨hpos, hneg⟩ := Laws.encodedFields_of_operand_le i ((wellFormed_iff i).1 hwf)
    rcases hw with rfl | rfl
    · exact decode_of_fields hpos
    · exact decode_of_fields hneg

end Sys2Proof

namespace Sys2Proof.Machine

/-- A running core on a Word that is no instruction ends the run, and nothing else changes (R75). -/
theorem step_of_unrecognized {s : State} (hr : s.status = .running) (hpc : s.pc ≤ 99)
    (hd : ∀ i, decode (Memory.read s.mem s.pc).val ≠ .ok i) :
    step s = .next (terminate .unrecognizedOpcode s) := by
  rcases step_cases s with ⟨hstop, -⟩ | ⟨-, hgt, -⟩ | ⟨-, -, -, hstep⟩ | ⟨-, -, i, hi, -, -⟩
  · exact absurd hr hstop
  · exact absurd hpc (Nat.not_le.2 hgt)
  · exact hstep
  · exact absurd hi (hd i)

/-- Settles O3: the magnitudes are those outside the four decodable blocks, and the step is the third case of
`step_cases`. -/
theorem unrecognizedMagnitudesOnlyTerminateTheRun :
    Obligations.UnrecognizedMagnitudesOnlyTerminateTheRun := by
  refine ⟨fun w => ?_, fun s hr hpc hd => step_of_unrecognized hr hpc hd⟩
  rw [← not_exists, exists_decode_ok_iff]
  omega

end Sys2Proof.Machine
end

section
/-! PROOFS. The execution cycle (40_execution_cycle.md): what an instruction with any operand answers, the cursor after a
step, the states that a step does not leave, and how a run from a launch ends. -/

namespace Sys2Proof.Machine

/-! ### What an instruction answers (R74, R76) -/

/-- The cursor after a completed instruction (the table of R74). -/
def nextCursor (s : State) : Instr → Nat
  | .branch aa => aa
  | .branchneg aa => if s.acc.val < 0 then aa else s.pc + 1
  | .branchzero aa => if s.acc.val = 0 then aa else s.pc + 1
  | .halt aa => aa
  | _ => s.pc + 1

/-- The two answers of an instruction that is not held: a fault, which touches `status` alone, or a completed state with its
cursor where R74 puts it, in which no fault is new. -/
inductive RaisesOrCompletes (cursor : Nat) (s : State) : Result → Prop where
  | raises (c : Cause) : RaisesOrCompletes cursor s (.next (terminate c s))
  | completes (t : State) (hpc : t.pc = cursor) (hstatus : t.status = s.status ∨ t.status = .halted) :
      RaisesOrCompletes cursor s (.next t)

theorem RaisesOrCompletes.answers_next {cursor : Nat} {s : State} {r : Result}
    (h : RaisesOrCompletes cursor s r) : ∃ t, r = .next t := by
  cases h with
  | raises c => exact ⟨_, rfl⟩
  | completes t => exact ⟨t, rfl⟩

/-- The end of every instruction but HALT and a taken branch. -/
theorem RaisesOrCompletes.of_advance {s u : State} (hpc : u.pc = s.pc) (hstatus : u.status = s.status) :
    RaisesOrCompletes (s.pc + 1) s (.next (advance u)) :=
  .completes _ (congrArg (· + 1) hpc) (.inl hstatus)

theorem RaisesOrCompletes.of_withDataOperand {cursor aa : Nat} {s : State} {use : Word → Result}
    (h : ∀ v, RaisesOrCompletes cursor s (use v)) :
    RaisesOrCompletes cursor s (withDataOperand aa s use) := by
  rcases withDataOperand_cases aa s use with ⟨-, e⟩ | ⟨-, e⟩ <;> rw [e]
  · exact h _
  · exact .raises _

theorem RaisesOrCompletes.of_withDataStored {cursor aa : Nat} {v : Word} {s : State} {use : Memory → Result}
    (h : ∀ m, RaisesOrCompletes cursor s (use m)) :
    RaisesOrCompletes cursor s (withDataStored aa v s use) := by
  rcases withDataStored_cases aa v s use with ⟨-, e⟩ | ⟨-, e⟩ <;> rw [e]
  · exact h _
  · exact .raises _

theorem RaisesOrCompletes.of_branchTo (aa : Nat) (s : State) :
    RaisesOrCompletes aa s (branchTo (aa : Int) s) := by
  rcases branchTo_cases aa s with ⟨-, e⟩ | ⟨-, e⟩ <;> rw [e]
  · exact .completes _ rfl (.inl rfl)
  · exact .raises _

/-- READ with nothing delivered holds the core (R81), whatever its operand. -/
theorem exec_read_of_no_input {s : State} (hin : s.input = []) (aa : Nat) :
    exec (.read aa) s = .next s := by
  simp only [exec, execRead, hin, stay_eq]

/-- Everything an instruction can answer, for any operand: a READ is held, or the instruction raises or completes. -/
theorem exec_cases (i : Instr) (s : State) :
    ((∃ aa, i = .read aa) ∧ s.input = [] ∧ exec i s = .next s) ∨
      RaisesOrCompletes (nextCursor s i) s (exec i s) := by
  cases i with
  | read aa =>
    cases hin : s.input with
    | nil => exact .inl ⟨⟨aa, rfl⟩, rfl, exec_read_of_no_input hin aa⟩
    | cons v rest =>
      rw [exec_read_of_input hin]
      exact .inr (.of_withDataStored fun _ => .of_advance rfl rfl)
  | store aa => exact .inr (.of_withDataStored fun _ => .of_advance rfl rfl)
  | write aa | load aa | add aa | subtract aa | multiply aa =>
    exact .inr (.of_withDataOperand fun _ => .of_advance rfl rfl)
  | divide aa =>
    refine .inr (.of_withDataOperand fun m => ?_)
    split
    · exact .raises _
    · exact .of_advance rfl rfl
  | branch aa => exact .inr (.of_branchTo aa s)
  | branchneg aa =>
    right
    by_cases hneg : s.acc.val < 0
    · simpa only [exec_branchneg_of_neg hneg, nextCursor, if_pos hneg] using .of_branchTo aa s
    · simpa only [exec_branchneg_of_nonneg (not_lt.1 hneg), nextCursor, if_neg hneg] using .of_advance rfl rfl
  | branchzero aa =>
    right
    by_cases hzero : s.acc.val = 0
    · simpa only [exec_branchzero_of_eq hzero, nextCursor, if_pos hzero] using .of_branchTo aa s
    · simpa only [exec_branchzero_of_ne hzero, nextCursor, if_neg hzero] using .of_advance rfl rfl
  | halt aa => exact .inr (.completes _ rfl (.inr rfl))

theorem exec_answers_next (i : Instr) (s : State) : ∃ t, exec i s = .next t := by
  rcases exec_cases i s with ⟨-, -, e⟩ | h
  · exact ⟨s, e⟩
  · exact h.answers_next

/-! ### One step of a running core -/

section RunningStep

variable {s t : State} (hr : s.status = .running)
include hr

/-- R77: beyond the last cell the fetch itself raises. -/
theorem step_of_pc_gt (hpc : 99 < s.pc) : step s = .next (terminate .outOfRange s) := by
  rcases step_cases s with ⟨hstop, -⟩ | ⟨-, -, hstep⟩ | ⟨-, hle, -⟩ | ⟨-, hle, -⟩
  · exact absurd hr hstop
  · exact hstep
  · exact absurd hpc (Nat.not_lt.2 hle)
  · exact absurd hpc (Nat.not_lt.2 hle)

/-- The fetch and the decoder raise as an instruction does, so a step raises or is an instruction's. -/
theorem step_raises_or_runs_exec :
    (∃ c, step s = .next (terminate c s)) ∨
      (s.pc ≤ 99 ∧ ∃ i, decode (Memory.read s.mem s.pc).val = .ok i ∧ step s = exec i s) := by
  rcases step_cases s with ⟨hstop, -⟩ | ⟨-, -, hstep⟩ | ⟨-, -, -, hstep⟩ | ⟨-, hpc, i, hd, -, hstep⟩
  · exact absurd hr hstop
  · exact .inl ⟨_, hstep⟩
  · exact .inl ⟨_, hstep⟩
  · exact .inr ⟨hpc, i, hd, hstep⟩

/-- A completed instruction leaves no fault in a core that was running. -/
theorem not_terminated_of_completes (hstatus : t.status = s.status ∨ t.status = .halted) (c : Cause) :
    t.status ≠ .terminated c := by
  intro ht
  rcases hstatus with h | h
  · cases hr.symm.trans (h.symm.trans ht)
  · cases h.symm.trans ht

/-- R76 for an instruction with any operand. -/
theorem exec_fault_eq_terminate {i : Instr} {c : Cause} (hs : exec i s = .next t)
    (ht : t.status = .terminated c) : t = terminate c s := by
  rcases exec_cases i s with ⟨-, -, e⟩ | h
  · cases e.symm.trans hs
    cases hr.symm.trans ht
  · rw [hs] at h
    cases h with
    | raises c' => cases ht; rfl
    | completes _ _ hstatus => exact absurd ht (not_terminated_of_completes hr hstatus c)

/-- R76 for a step. -/
theorem step_fault_eq_terminate {c : Cause} (hs : step s = .next t) (ht : t.status = .terminated c) :
    t = terminate c s := by
  rcases step_raises_or_runs_exec hr with ⟨c', hstep⟩ | ⟨-, i, -, hstep⟩
  · cases hstep.symm.trans hs
    cases ht
    rfl
  · exact exec_fault_eq_terminate hr (hstep.symm.trans hs) ht

/-- R74: a step that raises nothing and is not held ran an instruction, and the cursor is where the table puts it. -/
theorem step_pc_of_completed (hheld : ¬ s.heldAtRead) (hs : step s = .next t)
    (hnofault : ∀ c, t.status ≠ .terminated c) :
    ∃ i, decode (Memory.read s.mem s.pc).val = .ok i ∧ t.pc = nextCursor s i := by
  rcases step_raises_or_runs_exec hr with ⟨c, hstep⟩ | ⟨hpc, i, hd, hstep⟩
  · cases hstep.symm.trans hs
    exact absurd rfl (hnofault c)
  · refine ⟨i, hd, ?_⟩
    rcases exec_cases i s with ⟨⟨aa, rfl⟩, hin, -⟩ | h
    · exact absurd ⟨hr, hpc, hin, aa, hd⟩ hheld
    · rw [← hstep, hs] at h
      cases h with
      | raises c => exact absurd rfl (hnofault c)
      | completes _ hcursor _ => exact hcursor

end RunningStep

/-! ### How a run from a launch ends (R79) -/

theorem load_wf {image : List Int} {m m' : Memory} (hm : Memory.wf m) (h : load image m = .ok m') :
    Memory.wf m' := by
  unfold load at h
  split at h
  · cases h
  · split at h
    · cases h
    case h_2 hload => cases h; exact loadFrom_wf _ _ _ _ hm hload

/-- A launch gives the reset state its loaded store and the run's input (R192). -/
theorem launch_ok {image : List Int} {inp : List Word} {s : State} (h : launch image inp = .ok s) :
    ∃ m, load image State.reset.mem = .ok m ∧ s = setInput inp (setMem m State.reset) := by
  unfold launch at h
  split at h
  · cases h
  case h_2 m hload => cases h; exact ⟨m, hload, rfl⟩

theorem launch_inv {image : List Int} {inp : List Word} {s : State} (h : launch image inp = .ok s) :
    s.Inv := by
  obtain ⟨m, hload, rfl⟩ := launch_ok h
  exact (State.inv_iff_of_running rfl).2 ⟨load_wf Memory.reset_wf hload, Nat.zero_le _, rfl⟩

/-- The invariant holds of every state that a run from a launch passes through. -/
theorem inv_of_run_of_launch {image : List Int} {inp : List Word} {k : Nat} {s t : State}
    (hl : launch image inp = .ok s) (h : Host.Core.run Sys2Proof.core k s = .next t) : t.Inv :=
  run_keeps (fun _ _ => step_keeps_inv) k s t (launch_inv hl) h

/-- What the invariant explains of the end of a run, as the host sees it: the notification or the report. -/
theorem State.Inv.halted_or_reported {t : State} (hinv : t.Inv) (hover : t.runOver) :
    (t.status = .halted ∧ t.haltCount = 1 ∧ faultReport t = none) ∨
      (t.goneWrong ∧ t.haltCount = 0 ∧ ∃ c, c ≠ .invalidOperand ∧ faultReport t = some c) := by
  obtain ⟨-, -, hend⟩ := hinv
  unfold State.endExplained at hend
  cases hst : t.status with
  | running => exact absurd hst hover
  | halted =>
    rw [hst] at hend
    obtain ⟨hcount, -⟩ := hend
    exact .inl ⟨rfl, hcount, by simp only [faultReport, hst]⟩
  | terminated c =>
    have hreport : faultReport t = some c := by simp only [faultReport, hst]
    rw [hst] at hend
    cases c with
    | invalidOperand => exact hend.elim
    | outOfRange | divideByZero | unrecognizedOpcode =>
      obtain ⟨hcount, -⟩ := hend
      exact .inr ⟨⟨_, hst⟩, hcount, _, by decide, hreport⟩

/-! ### The obligations -/

/-- Settles O6: the stopped state steps to itself. -/
theorem stoppedCoreNeverChanges : Obligations.StoppedCoreNeverChanges :=
  fun k _ hstop => run_of_fixed (step_of_stopped hstop) k

/-- Settles O7: a step is a fault, no step at all, or the decoded instruction's. -/
theorem everyInstructionAndStepAnswersANextState :
    Obligations.EveryInstructionAndStepAnswersANextState := by
  refine ⟨exec_answers_next, fun s => ?_⟩
  by_cases hr : s.status = .running
  · rcases step_raises_or_runs_exec hr with ⟨c, hstep⟩ | ⟨-, i, -, hstep⟩
    · exact ⟨_, hstep⟩
    · rw [hstep]; exact exec_answers_next i s
  · exact ⟨s, step_of_stopped hr⟩

/-- Settles O8, with `nextCursor` as the statement's table. -/
theorem cursorAfterAStep : Obligations.CursorAfterAStep := by
  intro s t hr hheld hs
  constructor
  · rintro ⟨c, ht⟩
    rw [step_fault_eq_terminate hr hs ht, terminate_pc]
  · intro hnofault
    obtain ⟨i, hd, hpc⟩ := step_pc_of_completed hr hheld hs hnofault
    exact ⟨i, hd, hpc.trans (by cases i <;> rfl)⟩

/-- Settles O10: a step faults in its fetch, in its decoding or in its instruction, and each raises by `terminate`. -/
theorem faultChangesOnlyStatus : Obligations.FaultChangesOnlyStatus :=
  ⟨fun _ _ _ _ hr => exec_fault_eq_terminate hr, fun _ _ _ hr => step_fault_eq_terminate hr⟩

/-- Settles O11: assigning the cursor its own value is no change. -/
theorem branchToItselfNeverEnds : Obligations.BranchToItselfNeverEnds := by
  intro k s hr hpc hd
  have hfixed : step s = .next s := (step_eq_exec hr hpc hd).trans (branchTo_of_le hpc s)
  exact run_of_fixed hfixed k

/-- Settles O20: the held core is a fixed point of `step`, and the delivered Word is the one that READ takes. -/
theorem readIsHeldUntilAWordIsDelivered : Obligations.ReadIsHeldUntilAWordIsDelivered := by
  intro s aa hr hpc hin hd
  have haa : aa ≤ 99 := decode_operand_le hd
  refine ⟨run_of_fixed ((step_eq_exec hr hpc hd).trans (exec_read_of_no_input hin aa)), fun v => ?_⟩
  have hdelivered : (deliverInput v s).input = [v] := by simp [hin]
  have hstep : step (deliverInput v s) =
      .next (advance (setMem (Memory.write s.mem aa v) (setInput [] (deliverInput v s)))) := by
    rw [step_eq_exec (s := deliverInput v s) hr hpc hd, exec_read_of_input hdelivered]
    exact withDataStored_of_le haa v _ _
  refine ⟨_, hstep, Memory.read_write_same s.mem aa v, fun a ha => Memory.read_write_of_ne s.mem v ha, ?_⟩
  simp [advance, setMem, setInput, deliverInput, hin]

/-- Settles O49: the invariant holds at the launch and along the run, and explains its end. -/
theorem aRunEndsByHaltOrByAReportedFault : Obligations.ARunEndsByHaltOrByAReportedFault :=
  fun _ _ _ _ _ hl hrun => (inv_of_run_of_launch hl hrun).halted_or_reported

/-- Settles O4: the decoder delivers two-digit operands only. -/
theorem stepRunsTheDecodedInstruction : Obligations.StepRunsTheDecodedInstruction :=
  fun _ i hr hpc hd => ⟨(wellFormed_iff i).2 (decode_operand_le hd), step_eq_exec hr hpc hd⟩

/-- Settles O5: the cursor is on no cell. -/
theorem fetchBeyondTheLastCellRaisesOutOfRange : Obligations.FetchBeyondTheLastCellRaisesOutOfRange :=
  fun _ hr hpc => step_of_pc_gt hr hpc

end Sys2Proof.Machine
end

section
/-! PROOFS. READ and WRITE (41_io.md): the magnitudes that decode to an instruction, the step after running off the end,
and the two instructions with a two-digit operand. -/

namespace Sys2Proof

/-- An integer decodes to the instruction whose digit sum is its magnitude (R51, R56). -/
theorem decode_of_natAbs {w : Int} {i : Instr} (hop : i.operand ≤ 99)
    (hw : w.natAbs = opcodeOf i * 100 + i.operand) : decode w = .ok i :=
  (decodeAnswersExactlyTheEncodedInstruction w i).2
    ⟨(wellFormed_iff i).2 hop, (eq_encode_or_neg_iff w i).2 hw⟩

theorem decode_eq_read {w : Int} (hlo : 1000 ≤ w.natAbs) (hhi : w.natAbs ≤ 1099) :
    decode w = .ok (.read (w.natAbs - 1000)) := by
  apply decode_of_natAbs <;> simp only [opcodeOf, Instr.operand] <;> omega

theorem decode_eq_write {w : Int} (hlo : 1100 ≤ w.natAbs) (hhi : w.natAbs ≤ 1199) :
    decode w = .ok (.write (w.natAbs - 1100)) := by
  apply decode_of_natAbs <;> simp only [opcodeOf, Instr.operand] <;> omega

end Sys2Proof

namespace Sys2Proof.Machine

/-- The cursor advanced from the last cell is on none, so the step after it faults in its fetch (R77). -/
theorem step_advance_of_last {s : State} (hr : s.status = .running) (hpc : s.pc = 99) :
    step (advance s) = .next (terminate .outOfRange (advance s)) :=
  step_of_pc_gt (s := advance s) hr (by simp [hpc])

/-- READ with a Word delivered and a two-digit operand stores it (R90). -/
theorem exec_read_of_le {s : State} {aa : Nat} {v : Word} {rest : List Word} (h : aa ≤ 99)
    (hin : s.input = v :: rest) :
    exec (.read aa) s = .next (advance (setMem (Memory.write s.mem aa v) (setInput rest s))) :=
  (exec_read_of_input hin).trans (withDataStored_of_le h v s _)

theorem exec_write_of_le {s : State} {aa : Nat} (h : aa ≤ 99) :
    exec (.write aa) s = .next (advance (emit (Memory.read s.mem aa) s)) :=
  withDataOperand_of_le h s _

/-! ### The obligations -/

/-- Settles O19: the frame is that of `setInput`, `setMem` and `advance`, the cells are by the laws of a read after a write. -/
theorem readStoresTheNextInputWord : Obligations.ReadStoresTheNextInputWord := by
  refine ⟨fun w => decode_eq_read, fun s aa v rest haa hin => ?_⟩
  refine ⟨_, exec_read_of_le haa hin, ?stored, fun a ha => ?others, rfl, fun hr hpc => ?runOff⟩
  case stored => exact Memory.read_write_same s.mem aa v
  case others => exact Memory.read_write_of_ne s.mem v ha
  case runOff => exact step_advance_of_last hr hpc

/-- Settles O21: WRITE is `emit` and the advance, which touch `output` and `pc` alone. -/
theorem writeEmitsTheCell : Obligations.WriteEmitsTheCell := by
  refine ⟨fun w => decode_eq_write, fun s aa haa => ?_⟩
  exact ⟨_, exec_write_of_le haa, rfl, fun hr hpc => step_advance_of_last hr hpc⟩

end Sys2Proof.Machine
end

section
/-! PROOFS. LOAD and STORE (42_load_store.md): the magnitudes that decode to them, and a LOAD of the cell just stored. -/

namespace Sys2Proof

theorem decode_eq_load {w : Int} (hlo : 2000 ≤ w.natAbs) (hhi : w.natAbs ≤ 2099) :
    decode w = .ok (.load (w.natAbs - 2000)) :=
  decode_of_natAbs (Nat.sub_le_of_le_add hhi) (Nat.add_sub_of_le hlo).symm

theorem decode_eq_store {w : Int} (hlo : 2100 ≤ w.natAbs) (hhi : w.natAbs ≤ 2199) :
    decode w = .ok (.store (w.natAbs - 2100)) :=
  decode_of_natAbs (Nat.sub_le_of_le_add hhi) (Nat.add_sub_of_le hlo).symm

end Sys2Proof

namespace Sys2Proof.Machine

/-- From a cell that holds `v`, LOAD puts `v` into the accumulator. -/
theorem exec_load_of_read {s : State} {aa : Nat} {v : Word} (h : aa ≤ 99)
    (hv : Memory.read s.mem aa = v) : exec (.load aa) s = .next (advance (setAcc v s)) := by
  rw [exec_load_of_le h, hv]

/-! ### The obligations -/

/-- Settles O26: LOAD is `setAcc` and the advance, which touch `acc` and `pc` alone. -/
theorem loadCopiesTheCellIntoTheAccumulator : Obligations.LoadCopiesTheCellIntoTheAccumulator := by
  refine ⟨fun w => decode_eq_load, fun s aa haa => ?_⟩
  exact ⟨_, exec_load_of_le haa, rfl, fun hr hpc => step_advance_of_last hr hpc⟩

/-- Settles O27: the frame is that of `setMem` and `advance`, the cells are by the laws of a read after a write, and the
LOAD finds the accumulator's own Word in the cell. -/
theorem storeCopiesTheAccumulatorIntoTheCell : Obligations.StoreCopiesTheAccumulatorIntoTheCell := by
  refine ⟨fun w => decode_eq_store, fun s aa haa => ?_⟩
  have hstored := Memory.read_write_same s.mem aa s.acc
  refine ⟨_, exec_store_of_le haa, hstored, fun a ha => ?others, rfl, ?loadBack, fun hr hpc => ?runOff⟩
  case others => exact Memory.read_write_of_ne s.mem s.acc ha
  case loadBack => exact exec_load_of_read haa hstored
  case runOff => exact step_advance_of_last hr hpc

end Sys2Proof.Machine
end

section
/-! PROOFS. Arithmetic (43_arithmetic.md): `trunc4` as the remainder of the quotient rounded toward zero, `floorDiv` as the
floor of the rational quotient, and the four instructions with a two-digit operand. -/

namespace Sys2Proof

theorem Word.abs_val_le (w : Word) : |w.val| ≤ 9999 := abs_le.2 w.inRange

theorem decode_eq_add {w : Int} (hlo : 3000 ≤ w.natAbs) (hhi : w.natAbs ≤ 3099) :
    decode w = .ok (.add (w.natAbs - 3000)) :=
  decode_of_natAbs (Nat.sub_le_of_le_add hhi) (Nat.add_sub_of_le hlo).symm

theorem decode_eq_subtract {w : Int} (hlo : 3100 ≤ w.natAbs) (hhi : w.natAbs ≤ 3199) :
    decode w = .ok (.subtract (w.natAbs - 3100)) :=
  decode_of_natAbs (Nat.sub_le_of_le_add hhi) (Nat.add_sub_of_le hlo).symm

theorem decode_eq_divide {w : Int} (hlo : 3200 ≤ w.natAbs) (hhi : w.natAbs ≤ 3299) :
    decode w = .ok (.divide (w.natAbs - 3200)) :=
  decode_of_natAbs (Nat.sub_le_of_le_add hhi) (Nat.add_sub_of_le hlo).symm

theorem decode_eq_multiply {w : Int} (hlo : 3300 ≤ w.natAbs) (hhi : w.natAbs ≤ 3399) :
    decode w = .ok (.multiply (w.natAbs - 3300)) :=
  decode_of_natAbs (Nat.sub_le_of_le_add hhi) (Nat.add_sub_of_le hlo).symm

end Sys2Proof

namespace Sys2Proof.Machine

/-! ### Truncation (R110) -/

/-- The formula of `trunc4` is the remainder that has the sign of the dividend. -/
theorem trunc4_eq_tmod (v : Int) : trunc4 v = Int.tmod v 10000 := by
  rcases trunc4_cases v with ⟨hnonneg, h⟩ | ⟨hneg, h⟩
  · rw [h, Int.tmod_eq_emod_of_nonneg hnonneg]
  · rw [h, ← Int.tmod_eq_emod_of_nonneg (neg_nonneg.2 hneg.le), Int.neg_tmod, neg_neg]

theorem abs_trunc4_le (v : Int) : |trunc4 v| ≤ 9999 := abs_le.2 (trunc4_inRange v)

/-- A value that is already in the Word range is kept, and only such a value can be. -/
theorem trunc4_eq_self_iff (v : Int) : trunc4 v = v ↔ |v| ≤ 9999 := by
  constructor
  · intro h
    simpa only [h] using abs_trunc4_le v
  · intro h
    obtain ⟨hlo, hhi⟩ := abs_le.1 h
    rcases trunc4_cases v with ⟨hnonneg, e⟩ | ⟨hneg, e⟩ <;> omega

theorem trunc4_neg (v : Int) : trunc4 (-v) = -trunc4 v := by
  simp only [trunc4_eq_tmod, Int.neg_tmod]

theorem dvd_trunc4_sub (v : Int) : (10000 : Int) ∣ trunc4 v - v := by
  rw [trunc4_eq_tmod]
  exact Int.dvd_tmod_sub_self

theorem trunc4_eq_zero_iff (v : Int) : trunc4 v = 0 ↔ (10000 : Int) ∣ v := by
  rw [trunc4_eq_tmod, Int.dvd_iff_tmod_eq_zero]

theorem trunc4_eq_zero_or_sign_eq (v : Int) : trunc4 v = 0 ∨ (trunc4 v).sign = v.sign := by
  by_cases hdvd : (10000 : Int) ∣ v
  · exact .inl ((trunc4_eq_zero_iff v).2 hdvd)
  · exact .inr (by rw [trunc4_eq_tmod, Int.sign_tmod, if_neg hdvd])

/-- Below twice the modulus at most one modulus is taken off (R113, R114). -/
theorem trunc4_pieces {v : Int} (h : |v| ≤ 19998) :
    (|v| ≤ 9999 → trunc4 v = v) ∧ (10000 ≤ v → trunc4 v = v - 10000) ∧
      (v ≤ -10000 → trunc4 v = v + 10000) := by
  obtain ⟨hlo, hhi⟩ := abs_le.1 h
  refine ⟨(trunc4_eq_self_iff v).2, fun hge => ?_, fun hle => ?_⟩
  · rcases trunc4_cases v with ⟨-, e⟩ | ⟨hneg, -⟩ <;> omega
  · rcases trunc4_cases v with ⟨hnonneg, -⟩ | ⟨-, e⟩ <;> omega

/-! ### Floor division (R111) -/

/-- Holds of every divisor: a negative one is traded for a positive one by negating both numbers. -/
theorem floorDiv_eq_floor (a b : Int) : floorDiv a b = ⌊(a : ℚ) / (b : ℚ)⌋ := by
  rw [floorDiv]
  obtain ⟨n, rfl | rfl⟩ := Int.eq_nat_or_neg b
  · rw [Int.fdiv_eq_ediv_of_nonneg a (Int.natCast_nonneg n), Int.cast_natCast,
      Rat.floor_intCast_div_natCast]
  · rw [← Int.neg_fdiv_neg, neg_neg, Int.fdiv_eq_ediv_of_nonneg (-a) (Int.natCast_nonneg n),
      ← Rat.floor_intCast_div_natCast, Int.cast_neg, Int.cast_neg, Int.cast_natCast, neg_div, div_neg]

theorem isGreatest_floorDiv (a b : Int) :
    IsGreatest { q : Int | (q : ℚ) ≤ (a : ℚ) / (b : ℚ) } (floorDiv a b) := by
  rw [floorDiv_eq_floor]
  exact ⟨Int.floor_le ((a : ℚ) / (b : ℚ)), fun _ hq => Int.le_floor.2 hq⟩

theorem fmod_sign_and_abs_lt_of_pos (a : Int) {b : Int} (hb : 0 < b) :
    (Int.fmod a b = 0 ∨ (Int.fmod a b).sign = b.sign) ∧ |Int.fmod a b| < |b| := by
  have hnonneg : 0 ≤ Int.fmod a b := Int.fmod_nonneg_of_pos a hb
  constructor
  · rcases hnonneg.eq_or_lt with hzero | hpos
    · exact .inl hzero.symm
    · exact .inr ((Int.sign_eq_one_of_pos hpos).trans (Int.sign_eq_one_of_pos hb).symm)
  · rw [abs_of_nonneg hnonneg, abs_of_pos hb]
    exact Int.fmod_lt_of_pos a hb

/-- The remainder of a floor division is 0 or of the divisor's sign, and smaller than it; a negative divisor is traded as
in `floorDiv_eq_floor`. -/
theorem fmod_sign_and_abs_lt (a : Int) {b : Int} (hb : b ≠ 0) :
    (Int.fmod a b = 0 ∨ (Int.fmod a b).sign = b.sign) ∧ |Int.fmod a b| < |b| := by
  rcases lt_or_gt_of_ne hb with hneg | hpos
  · simpa only [Int.neg_fmod_neg, neg_eq_zero, Int.sign_neg, neg_inj, abs_neg] using
      fmod_sign_and_abs_lt_of_pos (-a) (neg_pos.2 hneg)
  · exact fmod_sign_and_abs_lt_of_pos a hpos

/-- Floor division does not leave the range of its dividend, so `trunc4` never shows in a quotient (R115). -/
theorem abs_floorDiv_le (a b : Int) : |floorDiv a b| ≤ |a| := by
  rw [Int.abs_eq_natAbs, Int.abs_eq_natAbs]
  exact Int.ofNat_le.2 (Int.natAbs_fdiv_le_natAbs a b)

/-! ### The four instructions -/

section Instructions

variable {s : State} {aa : Nat} (h : aa ≤ 99)
include h

theorem exec_add_of_le :
    exec (.add aa) s =
      .next (advance (setAcc (truncWord (s.acc.val + (Memory.read s.mem aa).val)) s)) :=
  withDataOperand_of_le h s _

theorem exec_subtract_of_le :
    exec (.subtract aa) s =
      .next (advance (setAcc (truncWord (s.acc.val - (Memory.read s.mem aa).val)) s)) :=
  withDataOperand_of_le h s _

theorem exec_multiply_of_le :
    exec (.multiply aa) s =
      .next (advance (setAcc (truncWord (s.acc.val * (Memory.read s.mem aa).val)) s)) :=
  withDataOperand_of_le h s _

theorem exec_divide_of_zero (hm : (Memory.read s.mem aa).val = 0) :
    exec (.divide aa) s = .next (terminate .divideByZero s) :=
  (withDataOperand_of_le h s _).trans (if_pos hm)

theorem exec_divide_of_ne_zero (hm : (Memory.read s.mem aa).val ≠ 0) :
    exec (.divide aa) s =
      .next (advance (setAcc (truncWord (floorDiv s.acc.val (Memory.read s.mem aa).val)) s)) :=
  (withDataOperand_of_le h s _).trans (if_neg hm)

end Instructions

/-! ### The ranges of the exact results -/

theorem abs_sum_le (x y : Word) : |x.val + y.val| ≤ 19998 :=
  (abs_add_le _ _).trans (add_le_add x.abs_val_le y.abs_val_le)

theorem abs_difference_le (x y : Word) : |x.val - y.val| ≤ 19998 :=
  (abs_sub _ _).trans (add_le_add x.abs_val_le y.abs_val_le)

theorem abs_product_le (x y : Word) : |x.val * y.val| ≤ 99980001 := by
  rw [abs_mul]
  exact mul_le_mul x.abs_val_le y.abs_val_le (abs_nonneg _) (by decide)

theorem truncWord_floorDiv_val (x y : Word) :
    (truncWord (floorDiv x.val y.val)).val = floorDiv x.val y.val :=
  (trunc4_eq_self_iff _).2 ((abs_floorDiv_le _ _).trans x.abs_val_le)

/-! ### The obligations -/

/-- Settles O28: all but the formula, which is the definition, follow from the remainder. -/
theorem truncationKeepsFourDigitsAndTheSign : Obligations.TruncationKeepsFourDigitsAndTheSign := by
  refine fun v => ⟨rfl, trunc4_eq_tmod v, ?quotient, abs_trunc4_le v, trunc4_eq_self_iff v, trunc4_neg v,
    trunc4_eq_zero_or_sign_eq v, dvd_trunc4_sub v⟩
  case quotient => rw [trunc4_eq_tmod, Int.tmod_def]

/-- Settles O29, with `Int.fmod` as the remainder. -/
theorem floorDivIsTheGreatestIntegerBelowTheQuotient :
    Obligations.FloorDivIsTheGreatestIntegerBelowTheQuotient := by
  intro a b hb
  exact ⟨isGreatest_floorDiv a b, Int.fmod a b, (floorDiv_mul_add_fmod a b).symm, fmod_sign_and_abs_lt a hb⟩

/-- Settles O30: the sum of two Words is below twice the modulus. -/
theorem addTruncatesTheExactSum : Obligations.AddTruncatesTheExactSum := by
  refine ⟨fun w => decode_eq_add, ?_⟩
  rintro s aa v haa rfl
  have hrange := abs_sum_le s.acc (Memory.read s.mem aa)
  exact ⟨hrange, _, exec_add_of_le haa, rfl, rfl, trunc4_pieces hrange⟩

/-- Settles O31: the difference of two Words, too, is below twice the modulus. -/
theorem subtractTruncatesTheExactDifference : Obligations.SubtractTruncatesTheExactDifference := by
  refine ⟨fun w => decode_eq_subtract, ?_⟩
  rintro s aa v haa rfl
  have hrange := abs_difference_le s.acc (Memory.read s.mem aa)
  exact ⟨hrange, _, exec_subtract_of_le haa, rfl, rfl, trunc4_pieces hrange⟩

/-- Settles O32: the accumulator takes the floor of the quotient untruncated, or the zero divisor raises. -/
theorem divideFloorsOrRaisesDivideByZero : Obligations.DivideFloorsOrRaisesDivideByZero := by
  refine ⟨fun w => decode_eq_divide, fun s aa haa => ⟨fun hm => ?_, exec_divide_of_zero haa⟩⟩
  refine ⟨_, exec_divide_of_ne_zero haa hm, rfl, ?_⟩
  rw [advance_acc, setAcc_acc, truncWord_floorDiv_val]
  exact isGreatest_floorDiv _ _

/-- Settles O33: the laws of `trunc4` at the exact product. -/
theorem multiplyKeepsTheLowFourDigitsOfTheProduct :
    Obligations.MultiplyKeepsTheLowFourDigitsOfTheProduct := by
  refine ⟨fun w => decode_eq_multiply, ?_⟩
  rintro s aa v haa rfl
  refine ⟨abs_product_le s.acc (Memory.read s.mem aa), _, exec_multiply_of_le haa, rfl, rfl, ?_⟩
  exact ⟨abs_trunc4_le _, dvd_trunc4_sub _, trunc4_eq_zero_iff _, trunc4_eq_zero_or_sign_eq _⟩

end Sys2Proof.Machine
end

section
/-! PROOFS. Control flow (44_control.md): the magnitudes that decode to it, the Control Unit over all integer targets, and
the halted core. -/

namespace Sys2Proof

/-- The hundred magnitudes from `lo` on decode to the instruction of one opcode, the operand counting from `lo`.
Over a variable `lo`, since by `rfl` the kernel would unfold a subtraction of thousands one by one. -/
theorem decode_of_opcode {w : Int} {mk : Nat → Instr} {op lo : Nat} (hopcode : ∀ aa, opcodeOf (mk aa) = op)
    (hoperand : ∀ aa, (mk aa).operand = aa) (hbase : op * 100 = lo) (hlo : lo ≤ w.natAbs)
    (hhi : w.natAbs ≤ lo + 99) : decode w = .ok (mk (w.natAbs - lo)) := by
  apply decode_of_natAbs
  · rw [hoperand]; omega
  · rw [hopcode, hoperand]; omega

theorem decode_eq_branch {w : Int} (hlo : 4000 ≤ w.natAbs) (hhi : w.natAbs ≤ 4099) :
    decode w = .ok (.branch (w.natAbs - 4000)) :=
  decode_of_opcode (fun _ => rfl) (fun _ => rfl) rfl hlo hhi

theorem decode_eq_branchneg {w : Int} (hlo : 4100 ≤ w.natAbs) (hhi : w.natAbs ≤ 4199) :
    decode w = .ok (.branchneg (w.natAbs - 4100)) :=
  decode_of_opcode (fun _ => rfl) (fun _ => rfl) rfl hlo hhi

theorem decode_eq_branchzero {w : Int} (hlo : 4200 ≤ w.natAbs) (hhi : w.natAbs ≤ 4299) :
    decode w = .ok (.branchzero (w.natAbs - 4200)) :=
  decode_of_opcode (fun _ => rfl) (fun _ => rfl) rfl hlo hhi

theorem decode_eq_halt {w : Int} (hlo : 4300 ≤ w.natAbs) (hhi : w.natAbs ≤ 4399) :
    decode w = .ok (.halt (w.natAbs - 4300)) :=
  decode_of_opcode (fun _ => rfl) (fun _ => rfl) rfl hlo hhi

end Sys2Proof

namespace Sys2Proof.Machine

/-! ### The Control Unit (R130) -/

/-- An integer target off the store, negative ones among them (which no operand field encodes), raises. -/
theorem branchTo_outOfRange {target : Int} (s : State) (h : target < 0 ∨ 99 < target) :
    branchTo target s = .next (terminate .outOfRange s) := by
  have hinvalid : ¬ (0 ≤ target ∧ target ≤ (Config.addrMax : Int)) := by
    simp only [Config.addrMax]
    omega
  exact if_neg hinvalid

/-! ### What the instructions answer -/

section Instructions

variable {s : State} {aa : Nat}

theorem exec_branch_of_le (h : aa ≤ 99) : exec (.branch aa) s = .next (setPc aa s) := branchTo_of_le h s

theorem exec_branchneg_of_le_of_neg (h : aa ≤ 99) (hacc : s.acc.val < 0) :
    exec (.branchneg aa) s = .next (setPc aa s) :=
  (exec_branchneg_of_neg hacc).trans (branchTo_of_le h s)

theorem exec_branchzero_of_le_of_eq (h : aa ≤ 99) (hacc : s.acc.val = 0) :
    exec (.branchzero aa) s = .next (setPc aa s) :=
  (exec_branchzero_of_eq hacc).trans (branchTo_of_le h s)

/-- HALT takes any operand (R134): the Control Unit's check is not made. -/
theorem exec_halt : exec (.halt aa) s = .next (notifyHalt (setHalted (setPc aa s))) := rfl

end Instructions

/-- A core that has just halted takes no further step (R78); it answers itself (log entry 4). -/
theorem step_of_halted {s : State} (h : s.status = .halted) : step s = .next s :=
  step_of_stopped (by simp [h])

/-! ### The obligations -/

/-- Settles O34: a valid target is a two-digit natural number. -/
theorem branchTargetIsValidExactlyFrom0To99 : Obligations.BranchTargetIsValidExactlyFrom0To99 := by
  refine fun target s => ⟨fun hlo hhi => ?valid, branchTo_outOfRange s⟩
  case valid =>
    lift target to Nat using hlo
    exact branchTo_of_le (Int.ofNat_le.1 hhi) s

/-- Settles O35: BRANCH is `setPc`, which touches `pc` alone. -/
theorem branchAssignsTheCursor : Obligations.BranchAssignsTheCursor :=
  ⟨fun _ => decode_eq_branch, fun _ _ => exec_branch_of_le⟩

/-- Settles O36: taken it is `setPc`, untaken the advance. -/
theorem branchnegIsTakenExactlyIfNegative : Obligations.BranchnegIsTakenExactlyIfNegative := by
  refine ⟨fun w => decode_eq_branchneg, fun s aa haa => ⟨exec_branchneg_of_le_of_neg haa, fun hacc => ?untaken⟩⟩
  case untaken => exact ⟨_, exec_branchneg_of_nonneg hacc, rfl, step_advance_of_last⟩

/-- Settles O37: as for BRANCHNEG, with the other condition on the accumulator. -/
theorem branchzeroIsTakenExactlyIfZero : Obligations.BranchzeroIsTakenExactlyIfZero := by
  refine ⟨fun w => decode_eq_branchzero, fun s aa haa => ⟨exec_branchzero_of_le_of_eq haa, fun hacc => ?untaken⟩⟩
  case untaken => exact ⟨_, exec_branchzero_of_ne hacc, rfl, step_advance_of_last⟩

/-- Settles O38: the frame is that of `setPc`, `setHalted` and `notifyHalt`, and the halted state steps to itself. -/
theorem haltStopsNotifiesAndAssignsTheCursor : Obligations.HaltStopsNotifiesAndAssignsTheCursor :=
  ⟨fun _ => decode_eq_halt, fun _ _ _ => ⟨_, exec_halt, rfl, step_of_halted rfl⟩⟩

end Sys2Proof.Machine
end

section
/-! PROOFS. The host interface (50_host_interface.md): which instruction touches the boundary to the host, the input behind
a run that never asks for it, and the images that load. -/

namespace Sys2Proof.Machine

/-! ### Who touches the boundary (R154 to R156) -/

/-- Each part of the boundary is moved by one instruction alone: the input by READ, the output by WRITE, the halt count by
HALT, which alone also halts. -/
structure BoundaryEffect (i : Instr) (s t : State) : Prop where
  input : t.input ≠ s.input → ∃ aa, i = .read aa
  output : t.output ≠ s.output → ∃ aa, i = .write aa
  haltCount : t.haltCount ≠ s.haltCount → ∃ aa, i = .halt aa
  halted : t.status = .halted → ∃ aa, i = .halt aa

/-- Holds of any instruction that leaves the boundary as it is. -/
theorem BoundaryEffect.of_untouched {i : Instr} {s t : State} (hin : t.input = s.input)
    (hout : t.output = s.output) (hcount : t.haltCount = s.haltCount) (hstatus : t.status ≠ .halted) :
    BoundaryEffect i s t where
  input h := absurd hin h
  output h := absurd hout h
  haltCount h := absurd hcount h
  halted h := absurd h hstatus

theorem exec_boundaryEffect {i : Instr} {s t : State} (hr : s.status = .running) (hop : i.operand ≤ 99)
    (hs : exec i s = .next t) : BoundaryEffect i s t := by
  have hrunning : s.status ≠ .halted := by simp [hr]
  have heffect := exec_effect hop hs
  cases i with
  | read aa =>
    obtain ⟨-, rfl⟩ | ⟨v, rest, -, rfl⟩ := heffect
    · exact .of_untouched rfl rfl rfl hrunning
    · exact ⟨fun _ => ⟨aa, rfl⟩, absurd rfl, absurd rfl, fun h => absurd h hrunning⟩
  | write aa =>
    dsimp only at heffect
    subst heffect
    exact ⟨absurd rfl, fun _ => ⟨aa, rfl⟩, absurd rfl, fun h => absurd h hrunning⟩
  | halt aa =>
    dsimp only at heffect
    subst heffect
    exact ⟨absurd rfl, absurd rfl, fun _ => ⟨aa, rfl⟩, fun _ => ⟨aa, rfl⟩⟩
  | load aa | store aa | branch aa =>
    dsimp only at heffect
    subst heffect
    exact .of_untouched rfl rfl rfl hrunning
  | add aa | subtract aa | multiply aa =>
    obtain ⟨v, rfl⟩ := heffect
    exact .of_untouched rfl rfl rfl hrunning
  | divide aa =>
    obtain ⟨-, rfl⟩ | ⟨-, v, rfl⟩ := heffect
    · exact .of_untouched rfl rfl rfl (by simp)
    · exact .of_untouched rfl rfl rfl hrunning
  | branchneg aa | branchzero aa =>
    obtain ⟨-, rfl⟩ | ⟨-, rfl⟩ := heffect
    · exact .of_untouched rfl rfl rfl hrunning
    · exact .of_untouched rfl rfl rfl hrunning

/-- A step that changes a part of the state other than `status` has the boundary effect of the instruction it ran. -/
theorem step_boundaryEffect_of_change {α : Type} (f : State → α) (hf : ∀ c s, f (terminate c s) = f s)
    {s t : State} (hs : step s = .next t) (hne : f t ≠ f s) :
    s.status = .running ∧ s.pc ≤ 99 ∧
      ∃ i, decode (Memory.read s.mem s.pc).val = .ok i ∧ exec i s = .next t ∧ BoundaryEffect i s t := by
  obtain ⟨hr, hpc, i, hd, hop, hexec⟩ := step_runs_exec_of_change f hf hs hne
  exact ⟨hr, hpc, i, hd, hexec, exec_boundaryEffect hr hop hexec⟩

/-- A running core halts by running a HALT: a fault of the cycle ends the run otherwise. -/
theorem step_runs_halt {s t : State} (hr : s.status = .running) (hs : step s = .next t)
    (ht : t.status = .halted) :
    ∃ aa, decode (Memory.read s.mem s.pc).val = .ok (.halt aa) ∧ exec (.halt aa) s = .next t := by
  rcases step_raises_or_runs_exec hr with ⟨c, hstep⟩ | ⟨-, i, hd, hstep⟩
  · cases hstep.symm.trans hs
    cases ht
  · have hexec : exec i s = .next t := hstep.symm.trans hs
    obtain ⟨aa, rfl⟩ := (exec_boundaryEffect hr (decode_operand_le hd) hexec).halted ht
    exact ⟨aa, hd, hexec⟩

/-! ### Input that a run does not ask for (R80, R154) -/

/-- A core held at a READ answers itself (R81). -/
theorem State.heldAtRead.step_eq {s : State} (h : s.heldAtRead) : step s = .next s := by
  obtain ⟨hr, hpc, hin, aa, hd⟩ := h
  exact (step_eq_exec hr hpc hd).trans (exec_read_of_no_input hin aa)

/-- Words waiting behind the input take no part in an instruction, unless it is a READ that finds nothing before them. -/
theorem exec_setInput_append {i : Instr} {s : State} (hop : i.operand ≤ 99)
    (hin : ∀ aa, i = .read aa → s.input ≠ []) (extra : List Word) :
    ∃ t, exec i s = .next t ∧
      exec i (setInput (s.input ++ extra) s) = .next (setInput (t.input ++ extra) t) := by
  cases i with
  | read aa =>
    obtain ⟨v, rest, hcons⟩ := List.exists_cons_of_ne_nil (hin aa rfl)
    have hwaiting : (setInput (s.input ++ extra) s).input = v :: (rest ++ extra) := by simp [hcons]
    exact ⟨_, exec_read_of_le hop hcons, exec_read_of_le hop hwaiting⟩
  | write aa => exact ⟨_, exec_write_of_le hop, exec_write_of_le hop⟩
  | load aa => exact ⟨_, exec_load_of_le hop, exec_load_of_le hop⟩
  | store aa => exact ⟨_, exec_store_of_le hop, exec_store_of_le hop⟩
  | add aa => exact ⟨_, exec_add_of_le hop, exec_add_of_le hop⟩
  | subtract aa => exact ⟨_, exec_subtract_of_le hop, exec_subtract_of_le hop⟩
  | multiply aa => exact ⟨_, exec_multiply_of_le hop, exec_multiply_of_le hop⟩
  | divide aa =>
    by_cases hzero : (Memory.read s.mem aa).val = 0
    · exact ⟨_, exec_divide_of_zero hop hzero, exec_divide_of_zero hop hzero⟩
    · exact ⟨_, exec_divide_of_ne_zero hop hzero, exec_divide_of_ne_zero hop hzero⟩
  | branch aa => exact ⟨_, exec_branch_of_le hop, exec_branch_of_le hop⟩
  | branchneg aa =>
    rcases lt_or_ge s.acc.val 0 with hacc | hacc
    · exact ⟨_, exec_branchneg_of_le_of_neg hop hacc, exec_branchneg_of_le_of_neg hop hacc⟩
    · exact ⟨_, exec_branchneg_of_nonneg hacc, exec_branchneg_of_nonneg hacc⟩
  | branchzero aa =>
    by_cases hacc : s.acc.val = 0
    · exact ⟨_, exec_branchzero_of_le_of_eq hop hacc, exec_branchzero_of_le_of_eq hop hacc⟩
    · exact ⟨_, exec_branchzero_of_ne hacc, exec_branchzero_of_ne hacc⟩
  | halt aa => exact ⟨_, exec_halt, exec_halt⟩

/-- Nor do they in a step of a core that is not held: the fetch and the decoder do not look at the input. -/
theorem step_setInput_append {s : State} (hheld : ¬ s.heldAtRead) (extra : List Word) :
    ∃ t, step s = .next t ∧
      step (setInput (s.input ++ extra) s) = .next (setInput (t.input ++ extra) t) := by
  rcases step_cases s with ⟨hstop, -⟩ | ⟨hr, hpc, -⟩ | ⟨hr, hpc, hd, -⟩ | ⟨hr, hpc, i, hd, hop, -⟩
  · exact ⟨_, step_of_stopped hstop, step_of_stopped hstop⟩
  · exact ⟨_, step_of_pc_gt hr hpc, step_of_pc_gt hr hpc⟩
  · exact ⟨_, step_of_unrecognized hr hpc hd, step_of_unrecognized hr hpc hd⟩
  · have hin : ∀ aa, i = .read aa → s.input ≠ [] := by
      rintro aa rfl hin
      exact hheld ⟨hr, hpc, hin, aa, hd⟩
    obtain ⟨t, hexec, hexec'⟩ := exec_setInput_append hop hin extra
    exact ⟨t, (step_eq_exec hr hpc hd).trans hexec,
      (step_eq_exec (s := setInput (s.input ++ extra) s) hr hpc hd).trans hexec'⟩

/-! ### The images that load (R151, R153) -/

theorem exists_imageWords_iff (image : List Int) :
    (∃ ws, imageWords image = some ws) ↔ ∀ v ∈ image, -9999 ≤ v ∧ v ≤ 9999 := by
  constructor
  · rintro ⟨ws, hws⟩ v hv
    rw [← imageWords_eq_some.1 hws] at hv
    obtain ⟨w, -, rfl⟩ := List.mem_map.1 hv
    exact w.inRange
  · intro h
    refine ⟨image.pmap Word.mk h, imageWords_eq_some.2 ?_⟩
    rw [List.map_pmap, List.pmap_eq_map, List.map_id']

/-- The loader's writes all find a cell exactly if the last one does. -/
theorem exists_loadFrom_ok_iff (ws : List Word) :
    ∀ (a : Nat) (m : Memory), a ≤ 100 → ((∃ m', loadFrom a ws m = .ok m') ↔ a + ws.length ≤ 100) := by
  induction ws with
  | nil => exact fun a m ha => iff_of_true ⟨m, rfl⟩ ha
  | cons w ws ih =>
    intro a m ha
    rw [List.length_cons]
    rcases Nat.lt_or_ge 99 a with hgt | hle
    · simp only [loadFrom, memWrite_of_gt m w hgt, reduceCtorEq, exists_false, false_iff]
      omega
    · simp only [loadFrom, memWrite_of_le m w hle]
      rw [ih (a + 1) _ (Nat.succ_le_succ hle), Nat.add_right_comm, Nat.add_assoc]

/-- A load takes the image as Words and writes them from address 0. -/
theorem load_eq_ok_iff {image : List Int} {m m' : Memory} :
    load image m = .ok m' ↔ ∃ ws, imageWords image = some ws ∧ loadFrom 0 ws m = .ok m' := by
  unfold load
  cases imageWords image with
  | none => simp
  | some ws => cases hload : loadFrom 0 ws m <;> simp [hload]

theorem exists_load_ok_iff (image : List Int) (m : Memory) :
    (∃ m', load image m = .ok m') ↔ image.length ≤ 100 ∧ ∀ v ∈ image, -9999 ≤ v ∧ v ≤ 9999 := by
  have hfits {ws : List Word} (hws : imageWords image = some ws) :
      (∃ m', loadFrom 0 ws m = .ok m') ↔ image.length ≤ 100 := by
    rw [exists_loadFrom_ok_iff ws 0 m (Nat.zero_le _), Nat.zero_add, ← imageWords_eq_some.1 hws,
      List.length_map]
  rw [← exists_imageWords_iff]
  constructor
  · rintro ⟨m', hload⟩
    obtain ⟨ws, hws, hm'⟩ := load_eq_ok_iff.1 hload
    exact ⟨(hfits hws).1 ⟨m', hm'⟩, ws, hws⟩
  · rintro ⟨hlength, ws, hws⟩
    obtain ⟨m', hm'⟩ := (hfits hws).2 hlength
    exact ⟨m', load_eq_ok_iff.2 ⟨ws, hws, hm'⟩⟩

/-- A launch adds no condition to those of its load; `launch_ok` says what it then is. -/
theorem exists_launch_ok_iff (image : List Int) (inp : List Word) :
    (∃ s, launch image inp = .ok s) ↔ ∃ m, load image State.reset.mem = .ok m := by
  constructor
  · rintro ⟨s, hs⟩
    obtain ⟨m, hload, -⟩ := launch_ok hs
    exact ⟨m, hload⟩
  · rintro ⟨m, hload⟩
    exact ⟨_, by rw [launch, hload]⟩

/-! ### The obligations -/

/-- Settles O22: `emit` appends the cell, and no other instruction touches the output. -/
theorem outputGrowsExactlyByWrite : Obligations.OutputGrowsExactlyByWrite := by
  refine fun s t hs => ⟨fun hr hpc aa hd => ?write, fun hno => ?otherwise⟩
  case write =>
    have haa : aa ≤ 99 := decode_operand_le hd
    rw [step_eq_exec hr hpc hd, exec_write_of_le haa] at hs
    cases hs
    rfl
  case otherwise =>
    by_contra hne
    obtain ⟨hr, hpc, i, hd, -, heffect⟩ := step_boundaryEffect_of_change State.output (fun _ _ => rfl) hs hne
    obtain ⟨aa, rfl⟩ := heffect.output hne
    exact hno ⟨hr, hpc, aa, hd⟩

/-- One step emits a Word at the end of the output or leaves it. -/
theorem step_output_prefix {s t : State} (hs : step s = .next t) : s.output <+: t.output := by
  obtain ⟨hwrite, hotherwise⟩ := outputGrowsExactlyByWrite s t hs
  by_cases h : s.status = .running ∧ s.pc ≤ 99 ∧ ∃ aa, decode (Memory.read s.mem s.pc).val = .ok (.write aa)
  · obtain ⟨hr, hpc, aa, hd⟩ := h
    rw [hwrite hr hpc aa hd]
    exact List.prefix_append _ _
  · rw [hotherwise h]

/-- Settles O23: to extend a given output is kept by every step. -/
theorem outputIsNeverWithdrawn : Obligations.OutputIsNeverWithdrawn :=
  fun k s t hrun => run_keeps (P := fun u => s.output <+: u.output)
    (fun _ _ hprefix hstep => hprefix.trans (step_output_prefix hstep)) k s t List.prefix_rfl hrun

/-- Settles O24: READ leaves the input behind its oldest Word, and no other instruction touches the input. -/
theorem inputIsConsumedExactlyByRead : Obligations.InputIsConsumedExactlyByRead := by
  refine fun s t hs => ⟨fun hr hpc aa v rest hd hin => ?read, fun hno => ?otherwise⟩
  case read =>
    have haa : aa ≤ 99 := decode_operand_le hd
    rw [step_eq_exec hr hpc hd, exec_read_of_le haa hin] at hs
    cases hs
    rfl
  case otherwise =>
    by_contra hne
    obtain ⟨hr, hpc, i, hd, -, heffect⟩ := step_boundaryEffect_of_change State.input (fun _ _ => rfl) hs hne
    obtain ⟨aa, rfl⟩ := heffect.input hne
    exact hno ⟨hr, hpc, aa, hd⟩

/-- Settles O25, by induction on the steps: a run that is held never leaves the hold, so each step of this one is of a core
that is not held, and the waiting Words pass it by. -/
theorem unconsumedInputIsNeverSeen : Obligations.UnconsumedInputIsNeverSeen := by
  intro extra k
  induction k with
  | zero => intro s t hrun _; cases hrun; rfl
  | succ k ih =>
    intro s t hrun hend
    have hheld : ¬ s.heldAtRead := by
      intro h
      cases (run_of_fixed h.step_eq (k + 1)).symm.trans hrun
      exact hend h
    obtain ⟨u, hstep, hstep'⟩ := step_setInput_append hheld extra
    rw [run_succ_of_step hstep] at hrun
    exact (run_succ_of_step hstep' k).trans (ih u t hrun hend)

/-- Settles O39: only HALT moves the count, and only HALT halts. -/
theorem haltNotificationIsSentExactlyByHalt : Obligations.HaltNotificationIsSentExactlyByHalt := by
  refine fun s t hs => ⟨fun hr ht => ?halts, fun hno => ?otherwise⟩
  case halts =>
    obtain ⟨aa, hd, hexec⟩ := step_runs_halt hr hs ht
    cases exec_halt.symm.trans hexec
    exact ⟨rfl, aa, hd⟩
  case otherwise =>
    by_contra hne
    obtain ⟨hr, -, i, -, hexec, heffect⟩ :=
      step_boundaryEffect_of_change State.haltCount (fun _ _ => rfl) hs hne
    obtain ⟨aa, rfl⟩ := heffect.haltCount hne
    cases exec_halt.symm.trans hexec
    exact hno ⟨hr, rfl⟩

/-- Settles O43: the elements must be Words and each must find a cell, and reset puts nothing in the way. -/
theorem launchExistsExactlyForAnImageOfWords : Obligations.LaunchExistsExactlyForAnImageOfWords :=
  fun image inp => (exists_launch_ok_iff image inp).trans (exists_load_ok_iff image State.reset.mem)

end Sys2Proof.Machine
end

section
/-! PROOFS. Exceptions (60_exceptions.md): the condition of each end of a run, before the step that ends it. -/

namespace Sys2Proof.Machine

/-- What a running core must be at for its step to leave each status (R170 to R174, R177). That the run goes on is
not asked for here, so `running` puts no condition. -/
def endCondition (s : State) : Status → Prop
  | .running => True
  | .halted => s.pc ≤ 99 ∧ ∃ aa, decode (Memory.read s.mem s.pc).val = .ok (.halt aa)
  | .terminated .outOfRange => 99 < s.pc
  | .terminated .divideByZero =>
      s.pc ≤ 99 ∧ ∃ aa, decode (Memory.read s.mem s.pc).val = .ok (.divide aa) ∧ (Memory.read s.mem aa).val = 0
  | .terminated .invalidOperand => False
  | .terminated .unrecognizedOpcode => s.pc ≤ 99 ∧ ∀ i, decode (Memory.read s.mem s.pc).val ≠ .ok i

theorem endCondition_of_running {s : State} {st : Status} (h : st = .running) : endCondition s st := by
  subst h
  trivial

section RunningStep

variable {s t : State} (hr : s.status = .running)
include hr

/-- Only HALT and a DIVIDE by 0 end the run; every other instruction, once decoded, leaves `status` as it is. -/
theorem exec_endCondition {i : Instr} (hpc : s.pc ≤ 99) (hd : decode (Memory.read s.mem s.pc).val = .ok i)
    (hs : exec i s = .next t) : endCondition s t.status := by
  have heffect := exec_effect (decode_operand_le hd) hs
  cases i with
  | halt aa =>
    dsimp only at heffect
    subst heffect
    exact ⟨hpc, aa, hd⟩
  | divide aa =>
    obtain ⟨hzero, rfl⟩ | ⟨-, v, rfl⟩ := heffect
    · exact ⟨hpc, aa, hd, hzero⟩
    · exact endCondition_of_running hr
  | read aa =>
    obtain ⟨-, rfl⟩ | ⟨v, rest, -, rfl⟩ := heffect
    · exact endCondition_of_running hr
    · exact endCondition_of_running hr
  | branchneg aa | branchzero aa =>
    obtain ⟨-, rfl⟩ | ⟨-, rfl⟩ := heffect
    · exact endCondition_of_running hr
    · exact endCondition_of_running hr
  | add aa | subtract aa | multiply aa =>
    obtain ⟨v, rfl⟩ := heffect
    exact endCondition_of_running hr
  | write aa | load aa | store aa | branch aa =>
    dsimp only at heffect
    subst heffect
    exact endCondition_of_running hr

/-- An end has its condition: the run ended in the fetch, in the decoding or in the instruction. -/
theorem step_endCondition (hs : step s = .next t) : endCondition s t.status := by
  rcases step_cases s with ⟨hstop, -⟩ | ⟨-, hpc, hstep⟩ | ⟨-, hpc, hd, hstep⟩ | ⟨-, hpc, i, hd, -, hstep⟩
  · exact absurd hr hstop
  · cases hstep.symm.trans hs
    exact hpc
  · cases hstep.symm.trans hs
    exact ⟨hpc, hd⟩
  · exact exec_endCondition hr hpc hd (hstep.symm.trans hs)

/-- A condition brings its end: each of them says which step is taken. -/
theorem step_status_of_endCondition {st : Status} (hend : st ≠ .running) (hs : step s = .next t)
    (hc : endCondition s st) : t.status = st := by
  cases st with
  | running => exact absurd rfl hend
  | halted =>
    obtain ⟨hpc, aa, hd⟩ := hc
    cases ((step_eq_exec hr hpc hd).trans exec_halt).symm.trans hs
    rfl
  | terminated c =>
    cases c with
    | outOfRange =>
      cases (step_of_pc_gt hr hc).symm.trans hs
      rfl
    | divideByZero =>
      obtain ⟨hpc, aa, hd, hzero⟩ := hc
      have hexec : exec (.divide aa) s = .next (terminate .divideByZero s) :=
        exec_divide_of_zero (decode_operand_le hd) hzero
      cases ((step_eq_exec hr hpc hd).trans hexec).symm.trans hs
      rfl
    | invalidOperand => exact hc.elim
    | unrecognizedOpcode =>
      obtain ⟨hpc, hd⟩ := hc
      cases (step_of_unrecognized hr hpc hd).symm.trans hs
      rfl

/-- Each end of a run has exactly its condition. -/
theorem step_status_eq_iff {st : Status} (hend : st ≠ .running) (hs : step s = .next t) :
    t.status = st ↔ endCondition s st := by
  constructor
  · rintro rfl
    exact step_endCondition hr hs
  · exact step_status_of_endCondition hr hend hs

end RunningStep

/-! ### The obligations -/

/-- Settles O9, with `endCondition` as the statement's table; a step always answers a next state. -/
theorem eachEndOfARunHasExactlyItsCause : Obligations.EachEndOfARunHasExactlyItsCause := by
  intro s hr
  obtain ⟨t, hs⟩ := everyInstructionAndStepAnswersANextState.2 s
  have hfault (c : Cause) : t.status = .terminated c ↔ endCondition s (.terminated c) :=
    step_status_eq_iff hr (by simp) hs
  exact ⟨t, hs, hfault .outOfRange, hfault .unrecognizedOpcode, hfault .divideByZero,
    (hfault .invalidOperand).1, step_status_eq_iff hr (by simp) hs⟩

end Sys2Proof.Machine
end

section
/-! PROOFS. Launch and re-launch (70_reset_and_hazards.md R192, R194): what a loaded store reads, and the state that a
re-launch gives. -/

namespace Sys2Proof.Machine

/-! ### The store after a load (R151) -/

/-- A load of one Word more is a write to a cell, then the load of the rest from the next address. -/
theorem loadFrom_cons_ok {a : Nat} {w : Word} {ws : List Word} {m m' : Memory}
    (h : loadFrom a (w :: ws) m = .ok m') : loadFrom (a + 1) ws (Memory.write m a w) = .ok m' := by
  rcases Nat.lt_or_ge 99 a with hgt | hle
  · rw [loadFrom, memWrite_of_gt m w hgt] at h
    cases h
  · rwa [loadFrom, memWrite_of_le m w hle] at h

/-- The loader leaves every cell outside the addresses it writes. -/
theorem read_loadFrom_of_outside {ws : List Word} {a b : Nat} {m m' : Memory}
    (h : loadFrom a ws m = .ok m') (hb : b < a ∨ a + ws.length ≤ b) : Memory.read m' b = Memory.read m b := by
  induction ws generalizing a m with
  | nil => cases h; rfl
  | cons w ws ih =>
    rw [List.length_cons] at hb
    calc Memory.read m' b
        = Memory.read (Memory.write m a w) b := ih (loadFrom_cons_ok h) (by omega)
      _ = Memory.read m b := Memory.read_write_of_ne m w (by omega)

/-- Each Word stands at its place: no later write of the load reaches it. -/
theorem read_loadFrom_of_lt {ws : List Word} {a k : Nat} {m m' : Memory}
    (h : loadFrom a ws m = .ok m') (hk : k < ws.length) : Memory.read m' (a + k) = ws[k] := by
  induction ws generalizing a k m with
  | nil => exact absurd hk (Nat.not_lt_zero k)
  | cons w ws ih =>
    have hrest := loadFrom_cons_ok h
    cases k with
    | zero =>
      have hkept : Memory.read m' a = Memory.read (Memory.write m a w) a :=
        read_loadFrom_of_outside hrest (.inl (Nat.lt_succ_self a))
      exact hkept.trans (Memory.read_write_same m a w)
    | succ k =>
      rw [← Nat.add_assoc, Nat.add_right_comm]
      exact ih hrest (Nat.lt_of_succ_lt_succ hk)

section LoadedStore

variable {image : List Int} {m m' : Memory} (h : load image m = .ok m')
include h

theorem read_load_of_lt {k : Nat} (hk : k < image.length) : (Memory.read m' k).val = image[k] := by
  obtain ⟨ws, hws, hload⟩ := load_eq_ok_iff.1 h
  obtain rfl := imageWords_eq_some.1 hws
  have hk' : k < ws.length := by rwa [List.length_map] at hk
  rw [List.getElem_map, ← read_loadFrom_of_lt hload hk', Nat.zero_add]

/-- The tail above the image is as it was before the load. -/
theorem read_load_of_length_le {k : Nat} (hk : image.length ≤ k) : Memory.read m' k = Memory.read m k := by
  obtain ⟨ws, hws, hload⟩ := load_eq_ok_iff.1 h
  obtain rfl := imageWords_eq_some.1 hws
  rw [List.length_map] at hk
  exact read_loadFrom_of_outside hload (.inr (by rwa [Nat.zero_add]))

end LoadedStore

/-! ### Re-launch (R194) -/

section Relaunch

variable {s : State} (image : List Int) (inp : List Word) (acc0 : Word)

theorem relaunch_of_running (hr : s.status = .running) :
    relaunch image inp acc0 s = .error .runInProgress := by
  rw [relaunch, hr]

/-- Of a core whose run is over, a re-launch is the reset state with the loaded store, the free accumulator
and the run's input. -/
theorem relaunch_of_runOver {m : Memory} (hover : s.runOver) (hload : load image s.mem = .ok m) :
    relaunch image inp acc0 s = .ok (setInput inp (setAcc acc0 (setMem m State.reset))) := by
  have hstopped : relaunch.relaunchStopped image inp acc0 s =
      .ok (setInput inp (setAcc acc0 (setMem m State.reset))) := by
    rw [relaunch.relaunchStopped, hload]
    rfl
  cases hst : s.status with
  | running => exact absurd hst hover
  | halted | terminated c => rwa [relaunch, hst]

end Relaunch

/-! ### The obligations -/

/-- Settles O42: the reset state with the loaded store, whose tail is the reset content. -/
theorem launchStateIsAFunctionOfTheImage : Obligations.LaunchStateIsAFunctionOfTheImage := by
  intro image inp hlength hwords
  obtain ⟨s, hs⟩ := (launchExistsExactlyForAnImageOfWords image inp).2 ⟨hlength, hwords⟩
  obtain ⟨m, hload, rfl⟩ := launch_ok hs
  have htail (k : Nat) (hk : image.length ≤ k) : Memory.read m k = Word.zero :=
    (read_load_of_length_le hload hk).trans (read_reset_mem k)
  exact ⟨_, hs, fun _ hk => read_load_of_lt hload hk, fun k hk => congrArg Word.val (htail k hk),
    rfl, rfl, rfl, rfl, rfl, rfl⟩

/-- Settles O44: the same load, over the store that the last run left. -/
theorem relaunchKeepsTheTailAndFreesTheAccumulator :
    Obligations.RelaunchKeepsTheTailAndFreesTheAccumulator := by
  refine fun image inp acc0 s => ⟨relaunch_of_running image inp acc0, fun hover hlength hwords => ?_⟩
  obtain ⟨m, hload⟩ := (exists_load_ok_iff image s.mem).2 ⟨hlength, hwords⟩
  exact ⟨_, relaunch_of_runOver image inp acc0 hover hload, fun _ hk => read_load_of_lt hload hk,
    fun _ hk => read_load_of_length_le hload hk, rfl, rfl, rfl, rfl, rfl, rfl⟩

/-- Settles O48: the launch state meets the invariant and every step keeps it. -/
theorem everyStateReachedFromALaunchMeetsTheInvariant :
    Obligations.EveryStateReachedFromALaunchMeetsTheInvariant :=
  fun _ _ _ _ _ hl hrun => inv_of_run_of_launch hl hrun

end Sys2Proof.Machine
end

section
/-! PROOFS. The canonical form of the store as data (10_state.md), and the host's placing of a table word where the next
step fetches (30_encoding.md, 40_execution_cycle.md). -/

namespace Sys2Proof.Machine

/-! ### The cells of a canonical store, by what is read -/

/-- No address is listed twice, so a listed cell is not hidden by another. -/
theorem Memory.read_of_mem {m : Memory} (hs : m.Pairwise (fun x y => x.1 < y.1)) {a : Nat} {v : Word}
    (hmem : (a, v) ∈ m) : Memory.read m a = v := by
  induction m with
  | nil => cases hmem
  | cons e rest ih =>
    obtain ⟨hhead, htail⟩ := List.pairwise_cons.1 hs
    rcases List.mem_cons.1 hmem with rfl | hrest
    · exact if_pos rfl
    · exact (if_neg (hhead _ hrest).ne).trans (ih htail hrest)

/-- What reads other than 0 is listed. -/
theorem Memory.mem_of_read_ne_zero {m : Memory} {a : Nat} (h : Memory.read m a ≠ Word.zero) :
    (a, Memory.read m a) ∈ m := by
  induction m with
  | nil => exact absurd rfl h
  | cons e rest ih =>
    obtain ⟨k, x⟩ := e
    by_cases hk : k = a
    · simp [Memory.read, hk]
    · simp only [Memory.read, if_neg hk] at h ⊢
      exact List.mem_cons_of_mem _ (ih h)

/-- The cells of a canonical store are the addresses 0 to 99 that do not read 0, each with the Word it reads. -/
theorem Memory.mem_iff_read {m : Memory} (hm : Memory.wf m) (a : Nat) (v : Word) :
    (a, v) ∈ m ↔ a ≤ 99 ∧ v ≠ Word.zero ∧ Memory.read m a = v := by
  obtain ⟨hs, hcells⟩ := hm
  constructor
  · intro hmem
    obtain ⟨ha, hv⟩ := hcells _ hmem
    exact ⟨ha, hv, Memory.read_of_mem hs hmem⟩
  · rintro ⟨-, hv, rfl⟩
    exact Memory.mem_of_read_ne_zero hv

/-- Strictly rising addresses leave one order for a set of cells. -/
theorem Memory.eq_of_same_cells {m n : Memory} (hm : m.Pairwise (fun x y => x.1 < y.1))
    (hn : n.Pairwise (fun x y => x.1 < y.1)) (h : ∀ e, e ∈ m ↔ e ∈ n) : m = n := by
  have hnodup {l : Memory} (hl : l.Pairwise (fun x y => x.1 < y.1)) : l.Nodup :=
    hl.imp fun hlt heq => hlt.ne (congrArg Prod.fst heq)
  have hperm : m.Perm n := (List.perm_ext_iff_of_nodup (hnodup hm) (hnodup hn)).2 h
  exact hperm.eq_of_pairwise (fun _ _ _ _ hlt hgt => absurd hlt hgt.asymm) hm hn

/-! ### The Word that the host places (log entries 7 and 11) -/

theorem decode_of_decodeTableWord {nbits w : Nat} {i : Instr} (h : decodeTableWord nbits w = some i) :
    decode (w : Int) = .ok i := by
  unfold decodeTableWord at h
  split at h
  case h_1 j hj => rw [hj, Option.some.inj h]
  case h_2 => cases h

/-- Every integer that decodes has four digits at most, so it is a Word. -/
theorem inRange_of_decode_ok {w : Int} {i : Instr} (h : decode w = .ok i) : -9999 ≤ w ∧ w ≤ 9999 := by
  have hblocks := (exists_decode_ok_iff w).1 ⟨i, h⟩
  omega

/-- A placed Word leaves a running core with the cursor on the cell that holds it. -/
theorem placeAtFetch_of_ofInt {w : Nat} {v : Word} (h : Word.ofInt (w : Int) = some v) (s : State) :
    (placeAtFetch w s).status = .running ∧ (placeAtFetch w s).pc ≤ 99 ∧
      Memory.read (placeAtFetch w s).mem (placeAtFetch w s).pc = v := by
  have hcursor : (if s.pc ≤ 99 then s.pc else 0) ≤ 99 := by split <;> omega
  rw [placeAtFetch, h]
  exact ⟨rfl, hcursor, Memory.read_write_same _ _ v⟩

/-! ### The obligations -/

/-- Settles O14: stores that read alike list the same cells, and a canonical store lists them in one order. -/
theorem canonicalStoresThatReadAlikeAreEqual : Obligations.CanonicalStoresThatReadAlikeAreEqual := by
  intro m n hm hn hread
  refine Memory.eq_of_same_cells hm.1 hn.1 fun ⟨a, v⟩ => ?_
  rw [Memory.mem_iff_read hm, Memory.mem_iff_read hn]
  exact and_congr_right fun ha => by rw [hread a ha]

/-- Settles O45: a table word that decodes is a Word, so it is placed, and the next step runs what it decodes to. -/
theorem withFetchWordRunsThePlacedWord : Obligations.WithFetchWordRunsThePlacedWord := by
  intro s nbits w i htable
  have hd : decode (w : Int) = .ok i := decode_of_decodeTableWord htable
  obtain ⟨hr, hpc, hcell⟩ := placeAtFetch_of_ofInt (ofInt_of_inRange (inRange_of_decode_ok hd)) s
  exact step_eq_exec hr hpc ((congrArg (fun v => decode v.val) hcell).trans hd)

/-- Settles O2, by running the decoder on the eighteen integers. -/
theorem decodeOfTheSpecsExampleWords : Obligations.DecodeOfTheSpecsExampleWords := by
  unfold Obligations.DecodeOfTheSpecsExampleWords
  decide

end Sys2Proof.Machine
end
